-- ==== Sys2Proof/Word.lean ====
section
/-! DEFINITION. The word types of the core: bytes, 16-bit words, and the field widths of an opcode
(00_scope.md R6, 30_encoding.md R72). Every value of this hardware is unsigned (00_scope.md R9). -/

namespace Sys2Proof

/-- An 8-bit value: a memory byte, a register `V[i]`, a timer, the immediate `NN`. -/
abbrev Byte := BitVec 8

/-- A 16-bit value: an opcode, `pc`, `I`, a stack entry. -/
abbrev Word := BitVec 16

/-- A 4-bit opcode field: a register index `X` or `Y`, the immediate `N`, a family. -/
abbrev Nibble := BitVec 4

/-- The 12-bit opcode field `NNN`. -/
abbrev Addr12 := BitVec 12

end Sys2Proof
end

