-- ==== Sys2Proof/Syntax.lean ====
section
/-! DEFINITION. The instructions: one constructor per row of spec/opcode_table.json (30_encoding.md R78,
R81, R82). A constructor holds exactly the opcode bits that its row leaves variable, so the no-op rows
keep the bits they ignore and no bit of an opcode is lost. -/

namespace Sys2Proof

/-- An instruction of the core. -/
inductive Instr where
  /-- `0NNN` `SYS` (R170): legacy machine-code call, a no-op. -/
  | sys (nnn : Addr12)
  /-- `00E0` `CLS` (R150): clear the framebuffer. -/
  | cls
  /-- `00EE` `RET` (R100): return. -/
  | ret
  /-- `1NNN` `JP` (R101): jump. -/
  | jp (nnn : Addr12)
  /-- `2NNN` `CALL` (R102): call. -/
  | call (nnn : Addr12)
  /-- `3XNN` `SE_IMM` (R110): skip if `VX = NN`. -/
  | seImm (x : Nibble) (nn : Byte)
  /-- `4XNN` `SNE_IMM` (R111): skip if `VX != NN`. -/
  | sneImm (x : Nibble) (nn : Byte)
  /-- `5XY0` `SE_REG` (R112): skip if `VX = VY`. -/
  | seReg (x y : Nibble)
  /-- `6XNN` `LD_IMM` (R120): `VX = NN`. -/
  | ldImm (x : Nibble) (nn : Byte)
  /-- `7XNN` `ADD_IMM` (R121): `VX += NN`, no flag. -/
  | addImm (x : Nibble) (nn : Byte)
  /-- `8XY0` `LD_REG` (R126): `VX = VY`. -/
  | ldReg (x y : Nibble)
  /-- `8XY1` `OR` (R127). -/
  | orReg (x y : Nibble)
  /-- `8XY2` `AND` (R128). -/
  | andReg (x y : Nibble)
  /-- `8XY3` `XOR` (R129). -/
  | xorReg (x y : Nibble)
  /-- `8XY4` `ADD_REG` (R130): add with carry out. -/
  | addReg (x y : Nibble)
  /-- `8XY5` `SUB` (R131): `VX - VY`. -/
  | sub (x y : Nibble)
  /-- `8XY6` `SHR` (R132): `VX = VY >> 1`. -/
  | shr (x y : Nibble)
  /-- `8XY7` `SUBN` (R133): `VY - VX`. -/
  | subn (x y : Nibble)
  /-- `8XYE` `SHL` (R134): `VX = VY << 1`. -/
  | shl (x y : Nibble)
  /-- `9XY0` `SNE_REG` (R113): skip if `VX != VY`. -/
  | sneReg (x y : Nibble)
  /-- `ANNN` `LD_I` (R140): `I = NNN`. -/
  | ldI (nnn : Addr12)
  /-- `BNNN` `JP_V0` (R103): jump to `NNN + V0`. -/
  | jpV0 (nnn : Addr12)
  /-- `CXNN` `RND` (R166): `VX = random & NN`. -/
  | rnd (x : Nibble) (nn : Byte)
  /-- `DXYN` `DRW` (R151): draw a sprite of `N` rows. -/
  | drw (x y n : Nibble)
  /-- `EX9E` `SKP` (R160): skip if key `VX` is down. -/
  | skp (x : Nibble)
  /-- `EXA1` `SKNP` (R161): skip if key `VX` is up. -/
  | sknp (x : Nibble)
  /-- `FX07` `LD_VX_DT` (R163): `VX = DT`. -/
  | ldVxDt (x : Nibble)
  /-- `FX0A` `LD_VX_K` (R162): wait for a key. -/
  | ldVxK (x : Nibble)
  /-- `FX15` `LD_DT_VX` (R164): `DT = VX`. -/
  | ldDtVx (x : Nibble)
  /-- `FX18` `LD_ST_VX` (R165): `ST = VX`. -/
  | ldStVx (x : Nibble)
  /-- `FX1E` `ADD_I` (R141): `I += VX`. -/
  | addI (x : Nibble)
  /-- `FX29` `LD_F` (R142): `I` = glyph address. -/
  | ldF (x : Nibble)
  /-- `FX33` `LD_B` (R143): store the BCD digits of `VX`. -/
  | ldB (x : Nibble)
  /-- `FX55` `ST_REGS` (R145): store `V0..VX`. -/
  | stRegs (x : Nibble)
  /-- `FX65` `LD_REGS` (R146): load `V0..VX`. -/
  | ldRegs (x : Nibble)
  /-- `5XYn`, `n != 0`, `NOP_5` (R171): no-op. -/
  | nop5 (x y n : Nibble)
  /-- `8XYn`, `n` in 8, 9, A, B, C, D, F, `NOP_8` (R172): no-op. -/
  | nop8 (x y n : Nibble)
  /-- `9XYn`, `n != 0`, `NOP_9` (R173): no-op. -/
  | nop9 (x y n : Nibble)
  /-- `EXnn`, `nn` not 9E, A1, `NOP_E` (R174): no-op. -/
  | nopE (x : Nibble) (nn : Byte)
  /-- `FXnn`, `nn` not 07, 0A, 15, 18, 1E, 29, 33, 55, 65, `NOP_F` (R175): no-op. -/
  | nopF (x : Nibble) (nn : Byte)
deriving DecidableEq, Repr

end Sys2Proof
end

