-- ==== Sys2Proof/WellFormed.lean ====
section
/-! DEFINITION. Which terms of `Instr` stand for opcodes. The field widths are in the types, so the only
checks left are those of the fall-back rows (30_encoding.md R76, R81): a no-op term must not hold the
sub-opcode of a defined instruction of its family. -/

namespace Sys2Proof

/-- The sub-opcodes of family 8 that are unknown (47_noop.md R172). -/
def unknownSub8 : List Nibble := [0x8, 0x9, 0xA, 0xB, 0xC, 0xD, 0xF]

/-- The low bytes of family E that are defined (47_noop.md R174). -/
def definedSubE : List Byte := [0x9E, 0xA1]

/-- The low bytes of family F that are defined (47_noop.md R175). -/
def definedSubF : List Byte := [0x07, 0x0A, 0x15, 0x18, 0x1E, 0x29, 0x33, 0x55, 0x65]

/-- Does the term stand for an opcode of its row (R74, R81)? -/
def Instr.wf : Instr → Bool
  | .sys nnn => nnn != 0x0E0#12 && nnn != 0x0EE#12
  | .nop5 _ _ n => n != 0#4
  | .nop8 _ _ n => unknownSub8.contains n
  | .nop9 _ _ n => n != 0#4
  | .nopE _ nn => !definedSubE.contains nn
  | .nopF _ nn => !definedSubF.contains nn
  | .cls | .ret | .jp _ | .call _ | .seImm _ _ | .sneImm _ _ | .seReg _ _ | .ldImm _ _ | .addImm _ _
  | .ldReg _ _ | .orReg _ _ | .andReg _ _ | .xorReg _ _ | .addReg _ _ | .sub _ _ | .shr _ _ | .subn _ _
  | .shl _ _ | .sneReg _ _ | .ldI _ | .jpV0 _ | .rnd _ _ | .drw _ _ _ | .skp _ | .sknp _ | .ldVxDt _
  | .ldVxK _ | .ldDtVx _ | .ldStVx _ | .addI _ | .ldF _ | .ldB _ | .stRegs _ | .ldRegs _ => true

end Sys2Proof
end

