-- ==== Sys2Proof/Decode.lean ====
section
/-! DEFINITION. Decoding (30_encoding.md R72 to R75), total on 16-bit opcodes; decoding from bytes, which
rejects by name a sequence that holds no whole opcode; and the encoder, from the same formats. -/

namespace Sys2Proof

/-! ### Fields (R73) -/

/-- `family = op[15:12]`. -/
def opFamily (op : Word) : Nibble := op.extractLsb' 12 4
/-- `X = op[11:8]`. -/
def opX (op : Word) : Nibble := op.extractLsb' 8 4
/-- `Y = op[7:4]`. -/
def opY (op : Word) : Nibble := op.extractLsb' 4 4
/-- `N = op[3:0]`. -/
def opN (op : Word) : Nibble := op.extractLsb' 0 4
/-- `NN = op[7:0]`. -/
def opNN (op : Word) : Byte := op.extractLsb' 0 8
/-- `NNN = op[11:0]`. -/
def opNNN (op : Word) : Addr12 := op.extractLsb' 0 12

/-! ### Selection inside a family (R74) -/

/-- Family 0x0. -/
def decode0 (nnn : Addr12) : Instr :=
  if nnn = 0x0E0#12 then .cls else if nnn = 0x0EE#12 then .ret else .sys nnn

/-- Family 0x5: only `N = 0` compares (log 13). -/
def decode5 (x y n : Nibble) : Instr :=
  if n = 0x0#4 then .seReg x y else .nop5 x y n

/-- Family 0x8. -/
def decode8 (x y n : Nibble) : Instr :=
  if n = 0x0#4 then .ldReg x y
  else if n = 0x1#4 then .orReg x y
  else if n = 0x2#4 then .andReg x y
  else if n = 0x3#4 then .xorReg x y
  else if n = 0x4#4 then .addReg x y
  else if n = 0x5#4 then .sub x y
  else if n = 0x6#4 then .shr x y
  else if n = 0x7#4 then .subn x y
  else if n = 0xE#4 then .shl x y
  else .nop8 x y n

/-- Family 0x9: only `N = 0` compares (log 13). -/
def decode9 (x y n : Nibble) : Instr :=
  if n = 0x0#4 then .sneReg x y else .nop9 x y n

/-- Family 0xE. -/
def decodeE (x : Nibble) (nn : Byte) : Instr :=
  if nn = 0x9E#8 then .skp x else if nn = 0xA1#8 then .sknp x else .nopE x nn

/-- Family 0xF. -/
def decodeF (x : Nibble) (nn : Byte) : Instr :=
  if nn = 0x07#8 then .ldVxDt x
  else if nn = 0x0A#8 then .ldVxK x
  else if nn = 0x15#8 then .ldDtVx x
  else if nn = 0x18#8 then .ldStVx x
  else if nn = 0x1E#8 then .addI x
  else if nn = 0x29#8 then .ldF x
  else if nn = 0x33#8 then .ldB x
  else if nn = 0x55#8 then .stRegs x
  else if nn = 0x65#8 then .ldRegs x
  else .nopF x nn

/-- `decode(op)` (R74): first on the family, then on the sub-opcode. Total: every 16-bit value is an
instruction or a no-op (R75). -/
def decodeWord (op : Word) : Instr :=
  match (opFamily op).toNat with
  | 0x0 => decode0 (opNNN op)
  | 0x1 => .jp (opNNN op)
  | 0x2 => .call (opNNN op)
  | 0x3 => .seImm (opX op) (opNN op)
  | 0x4 => .sneImm (opX op) (opNN op)
  | 0x5 => decode5 (opX op) (opY op) (opN op)
  | 0x6 => .ldImm (opX op) (opNN op)
  | 0x7 => .addImm (opX op) (opNN op)
  | 0x8 => decode8 (opX op) (opY op) (opN op)
  | 0x9 => decode9 (opX op) (opY op) (opN op)
  | 0xA => .ldI (opNNN op)
  | 0xB => .jpV0 (opNNN op)
  | 0xC => .rnd (opX op) (opNN op)
  | 0xD => .drw (opX op) (opY op) (opN op)
  | 0xE => decodeE (opX op) (opNN op)
  | _ => decodeF (opX op) (opNN op)

/-! ### Bytes (R50, R71) -/

/-- Why a byte sequence holds no instruction. -/
inductive DecodeError where
  /-- Fewer than the 2 bytes that every instruction has (R71). -/
  | truncated
deriving DecidableEq, Repr

/-- The opcode of two bytes as fetched: big-endian, the first byte is bits 15..8 (R50). -/
def wordOfBytes (hi lo : Byte) : Word := hi ++ lo

/-- Bits 15..8 of an opcode: the byte stored first. -/
def highByte (op : Word) : Byte := op.extractLsb' 8 8
/-- Bits 7..0 of an opcode: the byte stored second. -/
def lowByte (op : Word) : Byte := op.extractLsb' 0 8

/-- The instruction at the head of a byte sequence and the bytes after it. -/
def decodeBytes : List Byte → Except DecodeError (Instr × List Byte)
  | hi :: lo :: rest => .ok (decodeWord (wordOfBytes hi lo), rest)
  | [] => .error .truncated
  | [_] => .error .truncated

/-! ### Encoding (R72, R78) -/

/-- NNN format. -/
def formatNNN (family : Nibble) (nnn : Addr12) : Word := family ++ nnn
/-- XNN and XSS formats; in XSS the low byte is the sub-opcode. -/
def formatXNN (family x : Nibble) (nn : Byte) : Word := (family ++ x) ++ nn
/-- XYN format; the low nibble is an operand or the sub-opcode. -/
def formatXYN (family x y n : Nibble) : Word := ((family ++ x) ++ y) ++ n

/-- The opcode of an instruction. -/
def encode : Instr → Word
  | .sys nnn => formatNNN 0x0#4 nnn
  | .cls => 0x00E0#16
  | .ret => 0x00EE#16
  | .jp nnn => formatNNN 0x1#4 nnn
  | .call nnn => formatNNN 0x2#4 nnn
  | .seImm x nn => formatXNN 0x3#4 x nn
  | .sneImm x nn => formatXNN 0x4#4 x nn
  | .seReg x y => formatXYN 0x5#4 x y 0x0#4
  | .ldImm x nn => formatXNN 0x6#4 x nn
  | .addImm x nn => formatXNN 0x7#4 x nn
  | .ldReg x y => formatXYN 0x8#4 x y 0x0#4
  | .orReg x y => formatXYN 0x8#4 x y 0x1#4
  | .andReg x y => formatXYN 0x8#4 x y 0x2#4
  | .xorReg x y => formatXYN 0x8#4 x y 0x3#4
  | .addReg x y => formatXYN 0x8#4 x y 0x4#4
  | .sub x y => formatXYN 0x8#4 x y 0x5#4
  | .shr x y => formatXYN 0x8#4 x y 0x6#4
  | .subn x y => formatXYN 0x8#4 x y 0x7#4
  | .shl x y => formatXYN 0x8#4 x y 0xE#4
  | .sneReg x y => formatXYN 0x9#4 x y 0x0#4
  | .ldI nnn => formatNNN 0xA#4 nnn
  | .jpV0 nnn => formatNNN 0xB#4 nnn
  | .rnd x nn => formatXNN 0xC#4 x nn
  | .drw x y n => formatXYN 0xD#4 x y n
  | .skp x => formatXNN 0xE#4 x 0x9E#8
  | .sknp x => formatXNN 0xE#4 x 0xA1#8
  | .ldVxDt x => formatXNN 0xF#4 x 0x07#8
  | .ldVxK x => formatXNN 0xF#4 x 0x0A#8
  | .ldDtVx x => formatXNN 0xF#4 x 0x15#8
  | .ldStVx x => formatXNN 0xF#4 x 0x18#8
  | .addI x => formatXNN 0xF#4 x 0x1E#8
  | .ldF x => formatXNN 0xF#4 x 0x29#8
  | .ldB x => formatXNN 0xF#4 x 0x33#8
  | .stRegs x => formatXNN 0xF#4 x 0x55#8
  | .ldRegs x => formatXNN 0xF#4 x 0x65#8
  | .nop5 x y n => formatXYN 0x5#4 x y n
  | .nop8 x y n => formatXYN 0x8#4 x y n
  | .nop9 x y n => formatXYN 0x9#4 x y n
  | .nopE x nn => formatXNN 0xE#4 x nn
  | .nopF x nn => formatXNN 0xF#4 x nn

/-- The two bytes of an instruction, in the order of their addresses. -/
def encodeBytes (i : Instr) : List Byte := [highByte (encode i), lowByte (encode i)]

/-! ### The opcode table's view of a word -/

/-- The 16-bit opcode of a table word: its `nbits` bits, every bit above them 0. -/
def tableWord (nbits w : Nat) : Word := BitVec.ofNat 16 (w % 2 ^ nbits)

/-- The instruction the decoder reads from the opcode-table word `w`. The table numbers bit 15 as the
most significant bit of the opcode, which is bit 7 of the byte stored first (R72), so the bytes are the
high byte and then the low byte. -/
def decodeTableWord (nbits w : Nat) : Option Instr :=
  match decodeBytes [highByte (tableWord nbits w), lowByte (tableWord nbits w)] with
  | .ok (i, _) => some i
  | .error _ => none

end Sys2Proof
end

