-- ==== Sys2Proof/Config.lean ====
section
/-! DEFINITION. The parameters of this hardware (00_scope.md R6) and its two free values: the part of
`STACK_CAPACITY` the spec leaves open (R7) and the random source (46_key_timer_random.md R166). -/

namespace Sys2Proof.Config

/-- `MEM_SIZE`: addresses 0x000..0xFFF (R6). -/
@[simp] abbrev memSize : Nat := 0x1000

/-- `PROG_BASE`: where `load` puts the program (R6). -/
@[simp] abbrev progBase : Nat := 0x200

/-- `FONT_BASE`: address of glyph 0 (R6). -/
@[simp] abbrev fontBase : Nat := 0x050

/-- `FONT_SIZE`: 16 glyphs of 5 bytes (R6). -/
@[simp] abbrev fontSize : Nat := 80

/-- `FB_W`: columns of the framebuffer (R6). -/
@[simp] abbrev fbWidth : Nat := 64

/-- `FB_H`: rows of the framebuffer (R6). -/
@[simp] abbrev fbHeight : Nat := 32

/-- `NKEY`: keys 0x0..0xF (R6). -/
@[simp] abbrev numKeys : Nat := 16

/-- FREE VALUE (log 1). How many entries the call stack has beyond the 12 that 00_scope.md R7 requires.
No body: a claim proved in this model holds for every conforming `STACK_CAPACITY`. -/
opaque extraStackEntries : Nat

/-- FREE VALUE (log 2). The byte the random source gives at the `n`-th draw (46_key_timer_random.md
R166: "any value 0..255, a fresh draw at each execution"). No body: nothing relates two draws. -/
opaque randomByte : Nat → Byte

end Sys2Proof.Config
end

