-- ==== Sys2Proof/Machine/State.lean ====
section
/-! DEFINITION. The architectural state (10_state.md R20), plain data, and its value at reset (R45,
70_reset_and_hazards.md R210); the reasons a transition can stop. -/

namespace Sys2Proof.Machine

/-- `MEM` (10_state.md R37) as the list of (address, byte) pairs that differ from the reset contents
(R40), addresses strictly rising; an unlisted address reads as its reset contents (log 22). -/
abbrev Memory := List Host.Cell

/-- One row of the framebuffer: pixel `x` counted from the left edge (10_state.md R35). -/
abbrev PixelRow := Vector Bool 64

/-- `FB[y][x]`: 32 rows from the top edge, of 64 pixels (10_state.md R35); `true` is on. -/
abbrev Framebuffer := Vector PixelRow 32

/-- `KEY[k]` (10_state.md R36); `true` is down. -/
abbrev KeyVector := Vector Bool 16

/-- The values of the fault latch `FAULT` (10_state.md R34, 60_exceptions.md R180). -/
inductive FaultLatch where
  /-- `NONE`: the core is not halted. -/
  | none
  /-- `MemBounds(addr)`: the lowest address above 0xFFF that the access needed. -/
  | memBounds (addr : Word)
  /-- `StackOverflow`: `2NNN` on a full stack. -/
  | stackOverflow
  /-- `StackUnderflow`: `00EE` on an empty stack. -/
  | stackUnderflow
  /-- `KeyIndex(value)`: `EX9E` or `EXA1` on a value above 15. -/
  | keyIndex (value : Byte)
deriving DecidableEq, Repr

/-- The whole state of the core. -/
structure State where
  /-- `MEM`. -/
  mem : Memory
  /-- `V[0..15]` (R21). -/
  v : Vector Byte 16
  /-- `I` (R32). -/
  i : Word
  /-- `pc` (R27). -/
  pc : Word
  /-- The live stack entries, newest first: `STACK[SP-1]` is the head and `SP` the length (R31, log 5). -/
  stack : List Word
  /-- `DT` (R33). -/
  dt : Byte
  /-- `ST` (R33). -/
  st : Byte
  /-- `FB` (R35). -/
  fb : Framebuffer
  /-- `KEY` (R36). -/
  key : KeyVector
  /-- `FAULT` (R34). -/
  fault : FaultLatch
  /-- THE MODEL'S OWN FIELD: random bytes drawn so far (log 2). -/
  draws : Nat
deriving DecidableEq, Repr

/-- Reasons for the machine to stop with a fault. There are none: a fault of this hardware is taken as a
next state in which `FAULT` is latched and `step()` changes nothing (60_exceptions.md R186, R187, log 6). -/
inductive Fault where
deriving DecidableEq, Repr

/-- Reasons for a transition to have no meaning. -/
inductive Refusal where
  /-- Raised by an arm of `exec` for an instruction without a meaning. No arm raises it. Safe: the model
  stops where the hardware goes on. -/
  | notModelled (mnemonic : String)
  /-- Raised by the host event `load` in a state that is not the reset state: 70_reset_and_hazards.md
  R214 gives a late load no transition (log 17). Safe: no instruction raises it. -/
  | loadNotAfterReset
  /-- Raised by the host event `load` on more than 3584 bytes, which the external loader never passes on
  (20_memory.md R66, log 17). Safe: no instruction raises it. -/
  | romTooLong
deriving DecidableEq, Repr

/-- What a transition answers. -/
abbrev Result := Host.Outcome State Fault Refusal

/-- The state right after reset (R210): memory at its reset contents, `pc` at 0x200, all else zero. -/
def State.reset : State where
  mem := []
  v := Vector.replicate 16 0x00#8
  i := 0x0000#16
  pc := 0x0200#16
  stack := []
  dt := 0x00#8
  st := 0x00#8
  fb := Vector.replicate 32 (Vector.replicate 64 false)
  key := Vector.replicate 16 false
  fault := .none
  draws := 0

end Sys2Proof.Machine
end

