-- ==== Sys2Proof/Machine/Flags.lean ====
section
/-! DEFINITION. Every flag computation (10_state.md R24, 43_alu.md R135). A flag is the byte 0 or 1 that
an instruction writes to `VF`. -/

namespace Sys2Proof.Machine

/-- A condition as the byte written to `VF`. -/
def flagByte (c : Bool) : Byte := if c then 0x01#8 else 0x00#8

/-- Carry of `8XY4`: the unsigned sum exceeds 255 (43_alu.md R130). -/
def carryFlag (a b : Byte) : Byte := flagByte (decide (a.toNat + b.toNat > 255))

/-- No borrow of `8XY5`, `8XY7`: minuend at least subtrahend (43_alu.md R131, R133). -/
def noBorrowFlag (minuend subtrahend : Byte) : Byte :=
  flagByte (decide (subtrahend.toNat ≤ minuend.toNat))

/-- Bit shifted out to the right: bit 0 (43_alu.md R132). -/
def shiftedOutRight (b : Byte) : Byte := flagByte (b.getLsbD 0)

/-- Bit shifted out to the left: bit 7 (43_alu.md R134). -/
def shiftedOutLeft (b : Byte) : Byte := flagByte (b.getLsbD 7)

/-- The flag of the logic instructions: 0 always (43_alu.md R127 to R129). -/
def clearedFlag : Byte := flagByte false

/-- The collision flag of `DXYN` (45_display.md R151). -/
def collisionFlag (c : Bool) : Byte := flagByte c

end Sys2Proof.Machine
end

