-- ==== Sys2Proof/Machine/Operands.lean ====
section
/-! DEFINITION. The operand forms (30_encoding.md R73): registers named by a 4-bit field, immediates used
as unsigned numbers and zero-extended, the implicit operands, and the one addressing mode `I + k`
(20_memory.md R64). -/

namespace Sys2Proof.Machine

/-- The register field of `V0`, the implicit operand of `BNNN` (40_flow.md R103). -/
abbrev regV0 : Nibble := 0x0#4

/-- The register field of `VF`, the flag register (10_state.md R24). -/
abbrev regVF : Nibble := 0xF#4

/-- `V[x]` (10_state.md R22): every 4-bit field names a register. -/
def State.getV (s : State) (x : Nibble) : Byte := s.v[x.toNat]'x.isLt

/-- `NNN` zero-extended to `pc` or `I` (R73). -/
def zextAddr (nnn : Addr12) : Word := nnn.setWidth 16

/-- A register value zero-extended to 16 bits. -/
def zextByte (b : Byte) : Word := b.setWidth 16

/-- The effective address `I + k`, a natural number that is never reduced (20_memory.md R64). -/
def effectiveAddr (s : State) (k : Nat) : Nat := s.i.toNat + k

/-- How many addresses `FX55` and `FX65` access: `X + 1` (44_index_memory.md R144). -/
def transferCount (x : Nibble) : Nat := x.toNat + 1

/-- `0x050 + (VX & 0x0F) * 5`, the address of a glyph (44_index_memory.md R142). -/
def glyphAddr (b : Byte) : Word := BitVec.ofNat 16 (Config.fontBase + (b &&& 0x0F#8).toNat * 5)

/-- The hundreds, tens and ones of a byte, each a whole byte 0..9 (44_index_memory.md R143). -/
def bcdHundreds (b : Byte) : Byte := BitVec.ofNat 8 (b.toNat / 100)
def bcdTens (b : Byte) : Byte := BitVec.ofNat 8 (b.toNat / 10 % 10)
def bcdOnes (b : Byte) : Byte := BitVec.ofNat 8 (b.toNat % 10)

/-- Column and row of the sprite origin (45_display.md R151): wrapped, from the old register values. -/
def originX (b : Byte) : Nat := b.toNat % Config.fbWidth
def originY (b : Byte) : Nat := b.toNat % Config.fbHeight

/-- Sprite rows that are visible; the rest are clipped and not read (45_display.md R151, log 12). -/
def visibleRows (n : Nibble) (y0 : Nat) : Nat := min n.toNat (Config.fbHeight - y0)

/-- The bit of a sprite row drawn at column offset `k`: bit 7 is leftmost (45_display.md R153, log 4). -/
def spriteBit (b : Byte) (k : Nat) : Bool := b.getLsbD (7 - k)

end Sys2Proof.Machine
end

