-- ==== Sys2Proof/Machine/Ops.lean ====
section
/-! DEFINITION. The operations the instructions share: memory, registers, program counter, stack,
framebuffer, keys, and taking a fault. -/

namespace Sys2Proof.Machine

/-! ### Memory (20_memory.md) -/

/-- The byte of `MEM` at reset (10_state.md R40): the font at 0x050..0x09F, 0x00 elsewhere. It is what an
unlisted address reads as. -/
def resetByte (a : Nat) : Byte :=
  if Config.fontBase ≤ a ∧ a < Config.fontBase + Config.fontSize
  then font.getD (a - Config.fontBase) 0x00#8 else 0x00#8

/-- `MEM[a]`. -/
def Memory.get : Memory → Nat → Byte
  | [], a => resetByte a
  | (b, w) :: m, a => if a = b then w else Memory.get m a

/-- Put a cell in front unless it would list the reset byte. -/
def Memory.cons (a : Nat) (w : Byte) (m : Memory) : Memory :=
  if w = resetByte a then m else (a, w) :: m

/-- `MEM[a] <- w`, keeping the canonical form. -/
def Memory.set : Memory → Nat → Byte → Memory
  | [], a, w => Memory.cons a w []
  | (b, u) :: m, a, w =>
    if a < b then Memory.cons a w ((b, u) :: m)
    else if a = b then Memory.cons a w m
    else (b, u) :: Memory.set m a w

/-- The canonical form: addresses below 4096, strictly rising, no cell equal to the reset contents. -/
def Memory.wf : Memory → Bool
  | [] => true
  | (a, w) :: m =>
    decide (a < Config.memSize) && decide (w ≠ resetByte a) && m.all (fun c => decide (a < c.1))
      && Memory.wf m

/-- Store a byte sequence at ascending addresses from `a`. -/
def Memory.setBytes (m : Memory) (a : Nat) : List Byte → Memory
  | [] => m
  | w :: ws => Memory.setBytes (m.set a w) (a + 1) ws

/-- The bounds check of a range access, made before anything changes (R65): of the `count` ascending
addresses from `base`, the lowest one above 0xFFF, if there is one, that is `max(base, 0x1000)`. -/
def firstOutOfRange (base count : Nat) : Option Word :=
  if 0 < count ∧ Config.memSize ≤ base + count - 1
  then some (BitVec.ofNat 16 (max base Config.memSize)) else none

/-! ### Taking a fault (60_exceptions.md R186, R188) -/

/-- `raise F(info)`: every piece of state keeps its value and `FAULT <- F(info)` (R186). Nothing is
saved, no handler is entered; the core halts because `step()` sees the latch (R187). There is no return
from a fault: the only exit is the `reset` event (R188, `hostReset`). -/
def raise (f : FaultLatch) (s : State) : Result := .next { s with fault := f }

/-- Run `k` unless one of the `count` addresses from `base` is out of range (R65, R181). -/
def withRange (base count : Nat) (s : State) (k : State → Result) : Result :=
  match firstOutOfRange base count with
  | some a => raise (.memBounds a) s
  | none => k s

/-! ### Registers -/

/-- `V[x] <- b`. -/
def State.setV (s : State) (x : Nibble) (b : Byte) : State := { s with v := s.v.set x.toNat b x.isLt }

/-- `I <- w`. -/
def State.setI (s : State) (w : Word) : State := { s with i := w }

/-- `pc <- t`. -/
def State.setPc (s : State) (t : Word) : State := { s with pc := t }

/-- `pc <- pc + 2`: past this instruction (10_state.md R28). -/
def State.advance (s : State) : State := s.setPc (s.pc + 2#16)

/-- `pc <- pc + 4` if the condition holds, else `pc <- pc + 2` (R28). -/
def State.skipIf (s : State) (c : Bool) : State := if c then s.setPc (s.pc + 4#16) else s.advance

/-- Write a result and then the flag, last (10_state.md R25, 43_alu.md R125). -/
def State.setVAndFlag (s : State) (x : Nibble) (r c : Byte) : State := (s.setV x r).setV regVF c

/-- `DT <- b`. -/
def State.setDt (s : State) (b : Byte) : State := { s with dt := b }

/-- `ST <- b`. -/
def State.setSt (s : State) (b : Byte) : State := { s with st := b }

/-- `MEM[a] <- w` for an address already checked. -/
def State.store (s : State) (a : Nat) (w : Byte) : State := { s with mem := s.mem.set a w }

/-- A random byte has been drawn (log 2). -/
def State.countDraw (s : State) : State := { s with draws := s.draws + 1 }

/-! ### Call stack (10_state.md R31) -/

/-- `STACK_CAPACITY` (00_scope.md R7): at least 12, otherwise open (log 1). -/
def stackCapacity : Nat := Config.extraStackEntries + 12

/-- `SP`: the entries in use. -/
def State.sp (s : State) : Nat := s.stack.length

/-- `STACK[k]` for a live entry, `k < SP`, counted from the oldest. -/
def State.stackEntry (s : State) (k : Nat) : Option Word := s.stack.reverse[k]?

/-- Replace the live entries of the call stack. -/
def State.setStack (s : State) (l : List Word) : State := { s with stack := l }

/-- `Push(v)`, then go on with `k`; a full stack raises `StackOverflow` (60_exceptions.md R182). -/
def withPush (w : Word) (s : State) (k : State → Result) : Result :=
  if s.sp < stackCapacity then k (s.setStack (w :: s.stack)) else raise .stackOverflow s

/-- `Pop()`, then go on with `k`; an empty stack raises `StackUnderflow` (60_exceptions.md R183). -/
def withPop (s : State) (k : Word → State → Result) : Result :=
  match s.stack with
  | [] => raise .stackUnderflow s
  | w :: rest => k w (s.setStack rest)

/-! ### Fetch (30_encoding.md R70) -/

/-- `MemRead(pc, 2)` for a `pc` already checked: big-endian (20_memory.md R50). -/
def State.fetchWord (s : State) : Word :=
  wordOfBytes (s.mem.get s.pc.toNat) (s.mem.get (s.pc.toNat + 1))

/-! ### Transfers between registers and memory (44_index_memory.md R144 to R146) -/

/-- `for k = 0 .. n-1: MemWrite(base + k, 1, V[k])`. -/
def State.storeRegs (base : Nat) : Nat → State → State
  | 0, s => s
  | n + 1, s => (State.storeRegs base n s).store (base + n) (s.getV (BitVec.ofNat 4 n))

/-- `for k = 0 .. n-1: V[k] <- MemRead(base + k, 1)`. -/
def State.loadRegs (base : Nat) : Nat → State → State
  | 0, s => s
  | n + 1, s => (State.loadRegs base n s).setV (BitVec.ofNat 4 n) (s.mem.get (base + n))

/-! ### Framebuffer (10_state.md R35, 45_display.md R151) -/

/-- `FB[y][x]`; off outside the grid. -/
def Framebuffer.pixel (fb : Framebuffer) (y x : Nat) : Bool :=
  if h : y < 32 ∧ x < 64 then (fb[y]'h.1)[x]'h.2 else false

/-- `FB[y][x] <- b`; nothing outside the grid. -/
def Framebuffer.setPixel (fb : Framebuffer) (y x : Nat) (b : Bool) : Framebuffer :=
  if h : y < 32 ∧ x < 64 then fb.set y ((fb[y]'h.1).set x b h.2) h.1 else fb

/-- Every pixel off. -/
def Framebuffer.clear : Framebuffer := Vector.replicate 32 (Vector.replicate 64 false)

/-- A framebuffer being drawn on and the collision accumulator `c`. -/
structure Canvas where
  fb : Framebuffer
  collided : Bool
deriving DecidableEq, Repr

/-- XOR an on bit onto pixel `(x, y)`; an on pixel about to be turned off is a collision (R151). -/
def Canvas.toggle (c : Canvas) (y x : Nat) : Canvas where
  fb := c.fb.setPixel y x (!c.fb.pixel y x)
  collided := c.collided || c.fb.pixel y x

/-- The columns `k = 0 .. n-1` of one sprite row, clipped at the right edge (R151). -/
def Canvas.drawColumns (y x0 : Nat) (b : Byte) : Nat → Canvas → Canvas
  | 0, c => c
  | n + 1, c =>
    let c' := Canvas.drawColumns y x0 b n c
    if x0 + n < Config.fbWidth ∧ spriteBit b n = true then c'.toggle y (x0 + n) else c'

/-- The sprite rows `r = 0 .. n-1`, read from `base + r` (R151). -/
def Canvas.drawRows (m : Memory) (base y0 x0 : Nat) : Nat → Canvas → Canvas
  | 0, c => c
  | n + 1, c =>
    Canvas.drawColumns (y0 + n) x0 (m.get (base + n)) 8 (Canvas.drawRows m base y0 x0 n c)

/-- Replace the framebuffer. -/
def State.setFb (s : State) (fb : Framebuffer) : State := { s with fb := fb }

/-! ### Keys (10_state.md R36) -/

/-- `KEY[k]`; there is no key above 15. -/
def KeyVector.down (key : KeyVector) (k : Nat) : Bool := if h : k < 16 then key[k]'h else false

/-- The least key that is down among the `n` keys from `k` on. -/
def KeyVector.firstDownFrom (key : KeyVector) : Nat → Nat → Option Nat
  | 0, _ => none
  | n + 1, k => if key.down k then some k else KeyVector.firstDownFrom key n (k + 1)

/-- The least key that is down (46_key_timer_random.md R162). -/
def KeyVector.firstDown (key : KeyVector) : Option Nat := key.firstDownFrom Config.numKeys 0

/-- Go on with `k` on the number of a key; a value above 15 raises `KeyIndex` (60_exceptions.md R184,
log 11). -/
def withKey (b : Byte) (s : State) (k : Bool → Result) : Result :=
  if b.toNat < Config.numKeys then k (s.key.down b.toNat) else raise (.keyIndex b) s

end Sys2Proof.Machine
end

