-- ==== Sys2Proof/Machine/Alu.lean ====
section
/-! DEFINITION. Register-register ALU instructions (43_alu.md): `8XY0` to `8XY7`, `8XYE`. Both sources are
read before anything is written, and the flag is written last (R125). -/

namespace Sys2Proof.Machine

/-- `8XY0` (R126). -/
def execLdReg (x y : Nibble) (s : State) : Result := .next (s.setV x (s.getV y)).advance

/-- `8XY1` (R127). -/
def execOrReg (x y : Nibble) (s : State) : Result :=
  .next (s.setVAndFlag x (s.getV x ||| s.getV y) clearedFlag).advance

/-- `8XY2` (R128). -/
def execAndReg (x y : Nibble) (s : State) : Result :=
  .next (s.setVAndFlag x (s.getV x &&& s.getV y) clearedFlag).advance

/-- `8XY3` (R129). -/
def execXorReg (x y : Nibble) (s : State) : Result :=
  .next (s.setVAndFlag x (s.getV x ^^^ s.getV y) clearedFlag).advance

/-- `8XY4` (R130). -/
def execAddReg (x y : Nibble) (s : State) : Result :=
  .next (s.setVAndFlag x (s.getV x + s.getV y) (carryFlag (s.getV x) (s.getV y))).advance

/-- `8XY5` (R131). -/
def execSub (x y : Nibble) (s : State) : Result :=
  .next (s.setVAndFlag x (s.getV x - s.getV y) (noBorrowFlag (s.getV x) (s.getV y))).advance

/-- `8XY6` (R132): the source is `VY`. -/
def execShr (x y : Nibble) (s : State) : Result :=
  .next (s.setVAndFlag x (s.getV y >>> 1) (shiftedOutRight (s.getV y))).advance

/-- `8XY7` (R133). -/
def execSubn (x y : Nibble) (s : State) : Result :=
  .next (s.setVAndFlag x (s.getV y - s.getV x) (noBorrowFlag (s.getV y) (s.getV x))).advance

/-- `8XYE` (R134): the source is `VY`. -/
def execShl (x y : Nibble) (s : State) : Result :=
  .next (s.setVAndFlag x (s.getV y <<< 1) (shiftedOutLeft (s.getV y))).advance

end Sys2Proof.Machine
end

