-- ==== Sys2Proof/Machine/Const.lean ====
section
/-! DEFINITION. Register-immediate instructions (42_const.md): `6XNN`, `7XNN`. -/

namespace Sys2Proof.Machine

/-- `6XNN` (R120). -/
def execLdImm (x : Nibble) (nn : Byte) (s : State) : Result := .next (s.setV x nn).advance

/-- `7XNN` (R121): modulo 256, no flag. -/
def execAddImm (x : Nibble) (nn : Byte) (s : State) : Result :=
  .next (s.setV x (s.getV x + nn)).advance

end Sys2Proof.Machine
end

