-- ==== Sys2Proof/Machine/Display.lean ====
section
/-! DEFINITION. Framebuffer instructions (45_display.md): `00E0`, `DXYN`. -/

namespace Sys2Proof.Machine

/-- `00E0` (R150). -/
def execCls (s : State) : Result := .next (s.setFb Framebuffer.clear).advance

/-- The canvas after the visible rows of the sprite at `I` are drawn with its origin at the values of
`VX`, `VY` (R151). -/
def spriteCanvas (x y n : Nibble) (s : State) : Canvas :=
  Canvas.drawRows s.mem (effectiveAddr s 0) (originY (s.getV y)) (originX (s.getV x))
    (visibleRows n (originY (s.getV y))) ⟨s.fb, false⟩

/-- `DXYN` (R151): bounds check of the visible rows, draw, then `VF`. -/
def execDrw (x y n : Nibble) (s : State) : Result :=
  withRange (effectiveAddr s 0) (visibleRows n (originY (s.getV y))) s fun s =>
    .next ((s.setFb (spriteCanvas x y n s).fb).setV regVF
      (collisionFlag (spriteCanvas x y n s).collided)).advance

end Sys2Proof.Machine
end

