-- ==== Sys2Proof/Machine/Flow.lean ====
section
/-! DEFINITION. Control transfer (40_flow.md): `00EE`, `1NNN`, `2NNN`, `BNNN`. -/

namespace Sys2Proof.Machine

/-- `00EE` (R100): `pc` is the popped return address, advanced no further (90_conflicts.md C1). -/
def execRet (s : State) : Result := withPop s fun w s' => .next (s'.setPc w)

/-- `1NNN` (R101). -/
def execJp (nnn : Addr12) (s : State) : Result := .next (s.setPc (zextAddr nnn))

/-- `2NNN` (R102): pushes the address after the call (log 14). -/
def execCall (nnn : Addr12) (s : State) : Result :=
  withPush (s.pc + 2#16) s fun s' => .next (s'.setPc (zextAddr nnn))

/-- `BNNN` (R103): the sum is not reduced to 12 bits (log 9). -/
def execJpV0 (nnn : Addr12) (s : State) : Result :=
  .next (s.setPc (zextAddr nnn + zextByte (s.getV regV0)))

end Sys2Proof.Machine
end

