-- ==== Sys2Proof/Machine/IndexMemory.lean ====
section
/-! DEFINITION. Index register and memory transfer (44_index_memory.md): `ANNN`, `FX1E`, `FX29`, `FX33`,
`FX55`, `FX65`. -/

namespace Sys2Proof.Machine

/-- `ANNN` (R140). -/
def execLdI (nnn : Addr12) (s : State) : Result := .next (s.setI (zextAddr nnn)).advance

/-- `FX1E` (R141): modulo 65536, no flag, no fault (log 10). -/
def execAddI (x : Nibble) (s : State) : Result := .next (s.setI (s.i + zextByte (s.getV x))).advance

/-- `FX29` (R142). -/
def execLdF (x : Nibble) (s : State) : Result := .next (s.setI (glyphAddr (s.getV x))).advance

/-- `FX33` (R143): hundreds, tens, ones at `I`, `I+1`, `I+2`. -/
def execLdB (x : Nibble) (s : State) : Result :=
  withRange (effectiveAddr s 0) 3 s fun s =>
    .next (((s.store (effectiveAddr s 0) (bcdHundreds (s.getV x))).store (effectiveAddr s 1)
      (bcdTens (s.getV x))).store (effectiveAddr s 2) (bcdOnes (s.getV x))).advance

/-- `FX55` (R145): `I` is the old value throughout, then increased by `X` modulo 65536. -/
def execStRegs (x : Nibble) (s : State) : Result :=
  withRange (effectiveAddr s 0) (transferCount x) s fun s =>
    .next ((State.storeRegs (effectiveAddr s 0) (transferCount x) s).setI
      (s.i + x.setWidth 16)).advance

/-- `FX65` (R146). -/
def execLdRegs (x : Nibble) (s : State) : Result :=
  withRange (effectiveAddr s 0) (transferCount x) s fun s =>
    .next ((State.loadRegs (effectiveAddr s 0) (transferCount x) s).setI
      (s.i + x.setWidth 16)).advance

end Sys2Proof.Machine
end

