-- ==== Sys2Proof/Machine/KeyTimerRandom.lean ====
section
/-! DEFINITION. Keys, timers and random (46_key_timer_random.md): `EX9E`, `EXA1`, `FX0A`, `FX07`, `FX15`,
`FX18`, `CXNN`. -/

namespace Sys2Proof.Machine

/-- `EX9E` (R160): the key is the value of `VX`. -/
def execSkp (x : Nibble) (s : State) : Result :=
  withKey (s.getV x) s fun down => .next (s.skipIf down)

/-- `EXA1` (R161). -/
def execSknp (x : Nibble) (s : State) : Result :=
  withKey (s.getV x) s fun down => .next (s.skipIf (!down))

/-- `FX0A` (R162): the least key that is down, or no change at all (log 27). -/
def execLdVxK (x : Nibble) (s : State) : Result :=
  match s.key.firstDown with
  | some k => .next (s.setV x (BitVec.ofNat 8 k)).advance
  | none => .next s

/-- `FX07` (R163). -/
def execLdVxDt (x : Nibble) (s : State) : Result := .next (s.setV x s.dt).advance

/-- `FX15` (R164). -/
def execLdDtVx (x : Nibble) (s : State) : Result := .next (s.setDt (s.getV x)).advance

/-- `FX18` (R165). -/
def execLdStVx (x : Nibble) (s : State) : Result := .next (s.setSt (s.getV x)).advance

/-- `CXNN` on a given draw `b` (R166). -/
def rndWith (b : Byte) (x : Nibble) (nn : Byte) (s : State) : Result :=
  .next (s.setV x (nn &&& b)).countDraw.advance

/-- `CXNN` (R166): the draw is the free value at the draw counter (log 2). -/
def execRnd (x : Nibble) (nn : Byte) (s : State) : Result := rndWith (Config.randomByte s.draws) x nn s

end Sys2Proof.Machine
end

