-- ==== Sys2Proof/Machine/Noop.lean ====
section
/-! DEFINITION. No-op encodings (47_noop.md): `0NNN` and the unknown sub-opcodes of families 5, 8, 9, E
and F. Each does `pc <- pc + 2` and nothing else. -/

namespace Sys2Proof.Machine

/-- The shared meaning of every rule of 47_noop.md. -/
def noop (s : State) : Result := .next s.advance

/-- `0NNN` (R170). -/
def execSys (_nnn : Addr12) (s : State) : Result := noop s

/-- Family 5 with `N != 0` (R171, log 13). -/
def execNop5 (_x _y _n : Nibble) (s : State) : Result := noop s

/-- Family 8 with an unknown `N` (R172). -/
def execNop8 (_x _y _n : Nibble) (s : State) : Result := noop s

/-- Family 9 with `N != 0` (R173, log 13). -/
def execNop9 (_x _y _n : Nibble) (s : State) : Result := noop s

/-- Family E with an unknown `NN` (R174). -/
def execNopE (_x : Nibble) (_nn : Byte) (s : State) : Result := noop s

/-- Family F with an unknown `NN` (R175). -/
def execNopF (_x : Nibble) (_nn : Byte) (s : State) : Result := noop s

end Sys2Proof.Machine
end

