-- ==== Sys2Proof/Machine/Step.lean ====
section
/-! DEFINITION. `step()` (30_encoding.md R70), and where the next instruction is fetched from. -/

namespace Sys2Proof.Machine

/-- `step()` (R70): a halted core does nothing (60_exceptions.md R187); the fetch check comes first
(R189); then exactly one instruction executes. -/
def step (s : State) : Host.Outcome State Fault Refusal :=
  match s.fault with
  | .none => withRange s.pc.toNat 2 s fun s => exec (decodeWord s.fetchWord) s
  | _ => .next s

/-- `s` with the table word `w` stored where `step` fetches its next instruction, high byte first
(20_memory.md R50). The fetch needs a core that is not halted and a `pc` of at most 0xFFE (R70): the
latch is cleared, and a `pc` beyond that is put at 0x200; else nothing but the two bytes changes (log 19). -/
def State.withFetchWord (s : State) (nbits w : Nat) : State :=
  let pc := if s.pc.toNat + 1 < Config.memSize then s.pc else 0x0200#16
  { s with
    pc := pc
    fault := .none
    mem := (s.mem.set pc.toNat (highByte (tableWord nbits w))).set (pc.toNat + 1)
      (lowByte (tableWord nbits w)) }

end Sys2Proof.Machine
end

