-- ==== Sys2Proof/Machine/HostEvents.lean ====
section
/-! DEFINITION. The transitions the host causes beside `step()`, and schedules of them (00_scope.md R5,
10_state.md R43). Each is one atomic transition; the host chooses the interleaving (log 16). -/

namespace Sys2Proof.Machine

/-- One timer under a tick: floor at 0 (60_exceptions.md R196). -/
def tickDown (b : Byte) : Byte := if b = 0#8 then 0#8 else b - 1#8

/-- `tick_timers()` (60_exceptions.md R196). -/
def tickTimers (s : State) : State := (s.setDt (tickDown s.dt)).setSt (tickDown s.st)

/-- `set_keys(k)` (60_exceptions.md R199). -/
def setKeys (k : KeyVector) (s : State) : State := { s with key := k }

/-- `reset` (70_reset_and_hazards.md R210), from any state, a halted one included (log 18). The draw
counter is not the hardware's and goes on: a draw after a reset is still a fresh one (log 2). -/
def hostReset (s : State) : State := { State.reset with draws := s.draws }

/-- The longest program: `4096 - 0x200` bytes (20_memory.md R66). -/
def maxRomBytes : Nat := Config.memSize - Config.progBase

/-- `load(rom)` (70_reset_and_hazards.md R214): defined directly after reset only, and for at most 3584
bytes (log 17). -/
def hostLoad (rom : List Byte) (s : State) : Result :=
  if s ≠ hostReset s then .refused .loadNotAfterReset
  else if maxRomBytes < rom.length then .refused .romTooLong
  else .next { s with mem := s.mem.setBytes Config.progBase rom }

/-- What the host can read at any time between transitions (10_state.md R43, 60_exceptions.md R200). -/
structure Outputs where
  fb : Framebuffer
  delay : Byte
  sound : Byte
  fault : FaultLatch
deriving DecidableEq, Repr

/-- The outputs are a view of the state: reading them changes nothing (R200). -/
def State.outputs (s : State) : Outputs := ⟨s.fb, s.dt, s.st, s.fault⟩

/-- The numeric code of a latched fault (60_exceptions.md R180, log 20). -/
def FaultLatch.code : FaultLatch → Nat
  | .none => 0
  | .memBounds _ => 1
  | .stackOverflow => 2
  | .stackUnderflow => 3
  | .keyIndex _ => 4

/-- An input event of the core (10_state.md R43). -/
inductive Event where
  | reset
  | load (rom : List Byte)
  | step
  | tick
  | setKeys (k : KeyVector)
deriving DecidableEq, Repr

/-- The transition an event causes (00_scope.md R5). -/
def transition (e : Event) (s : State) : Result :=
  match e with
  | .reset => .next (hostReset s)
  | .load rom => hostLoad rom s
  | .step => step s
  | .tick => .next (tickTimers s)
  | .setKeys k => .next (setKeys k s)

/-- Continue with a next state; stop otherwise. -/
def andThen (r : Result) (k : State → Result) : Result :=
  match r with
  | .next s => k s
  | .fault f => .fault f
  | .refused q => .refused q

/-- Events in the order the host issues them. -/
def runSchedule : List Event → State → Result
  | [], s => .next s
  | e :: es, s => andThen (transition e s) (runSchedule es)

end Sys2Proof.Machine
end

