-- ==== Sys2Proof/Safety.lean ====
section
/-! DEFINITION. The terms that claims use: the invariant of the state, what a transition leaves unchanged,
the spec's tables of the next `pc` (10_state.md R28) and of the fault conditions (60_exceptions.md R181 to
R184), and the halted and terminal states. -/

namespace Sys2Proof.Machine

/-! ### Frames -/

/-- The pieces of the state (10_state.md R20), and the model's draw counter. -/
inductive Component where
  | mem | v | i | pc | stack | dt | st | fb | key | fault | draws
deriving DecidableEq, Repr

/-- Component `c` reads in `t` as it reads in `s`: memory byte by byte, the registers one by one, the
framebuffer pixel by pixel. -/
def keeps (s t : State) : Component → Prop
  | .mem => ∀ a, t.mem.get a = s.mem.get a
  | .v => ∀ r, t.getV r = s.getV r
  | .i => t.i = s.i
  | .pc => t.pc = s.pc
  | .stack => t.stack = s.stack
  | .dt => t.dt = s.dt
  | .st => t.st = s.st
  | .fb => ∀ y x, t.fb.pixel y x = s.fb.pixel y x
  | .key => t.key = s.key
  | .fault => t.fault = s.fault
  | .draws => t.draws = s.draws

/-- Everything but the components `cs` reads in `t` as it reads in `s`. -/
def keepsAllBut (cs : List Component) (s t : State) : Prop := ∀ c, c ∉ cs → keeps s t c

/-- The effect of an instruction that writes `VX` only: `VX` is `r`, every other register as before,
`pc + 2`, nothing else. -/
def resultEffect (s t : State) (x : Nibble) (r : Byte) : Prop :=
  (∀ q, t.getV q = if q = x then r else s.getV q) ∧ t.pc = s.pc + 2#16 ∧ keepsAllBut [.v, .pc] s t

/-- The effect of an instruction that writes a result and a flag (10_state.md R25): `VF` is the flag `c`,
`VX` the result `r` unless it is `VF`, every other register as before, `pc + 2`, nothing else. -/
def flaggedEffect (s t : State) (x : Nibble) (r c : Byte) : Prop :=
  (∀ q, t.getV q = if q = 0xF#4 then c else if q = x then r else s.getV q) ∧
    t.pc = s.pc + 2#16 ∧ keepsAllBut [.v, .pc] s t

/-- The effect of a skip: `pc + 4` if the condition holds, else `pc + 2`, nothing else (R28). -/
def skipEffect (s t : State) (c : Prop) : Prop :=
  (c → t.pc = s.pc + 4#16) ∧ (¬ c → t.pc = s.pc + 2#16) ∧ keepsAllBut [.pc] s t

/-- The effect of a no-op (47_noop.md): `pc + 2`, nothing else. -/
def noopEffect (s t : State) : Prop := t.pc = s.pc + 2#16 ∧ keepsAllBut [.pc] s t

/-! ### The invariant -/

/-- The recorded info of a latched fault is of the kind 60_exceptions.md R180 gives. -/
def FaultLatch.wf : FaultLatch → Prop
  | .memBounds a => 0x1000 ≤ a.toNat
  | .keyIndex b => 16 ≤ b.toNat
  | .none | .stackOverflow | .stackUnderflow => True

/-- The highest `pc` any rule produces, `0xFFF + 0xFF` (10_state.md R29). -/
def maxPc : Nat := 0x10FE

/-- The highest return address: a call at 0xFFE pushes 0x1000 (40_flow.md R102). -/
def maxReturn : Nat := 0x1000

/-- What holds of the state between transitions: memory in its canonical form; the stack depth within
its capacity (10_state.md R31); `pc` at most 0x10FE (R29); the stack entries return addresses; the fault
info of its kind. -/
def State.Inv (s : State) : Prop :=
  s.mem.wf = true ∧ s.sp ≤ stackCapacity ∧ s.pc.toNat ≤ maxPc ∧
    (∀ w ∈ s.stack, w.toNat ≤ maxReturn) ∧ s.fault.wf

/-! ### Halted and terminal states -/

/-- Halted: the fault latch is set (60_exceptions.md R187). A safe run never is. -/
def State.halted (s : State) : Prop := s.fault ≠ .none

/-- The opcode at `pc` can be fetched (30_encoding.md R70). -/
def State.fetchable (s : State) : Prop := s.pc.toNat ≤ 0xFFE

/-- The end of a run (70_reset_and_hazards.md R222): not halted, and the opcode at `pc` is `1NNN` with
`NNN = pc`. A convention of claims, not of the hardware (log 21). -/
def State.terminal (s : State) : Prop :=
  ¬ s.halted ∧ s.fetchable ∧ ∃ nnn, decodeWord s.fetchWord = .jp nnn ∧ zextAddr nnn = s.pc

/-! ### Tables of the spec about all instructions -/

/-- A key is down. -/
def State.someKeyDown (s : State) : Prop := ∃ k, k < 16 ∧ s.key.down k = true

/-- The table of 10_state.md R28: how each instruction that does not fault leaves `pc`. -/
def specNextPc (s t : State) : Instr → Prop
  | .jp nnn | .call nnn => t.pc.toNat = nnn.toNat
  | .jpV0 nnn => t.pc.toNat = nnn.toNat + (s.getV 0#4).toNat
  | .ret => s.stack.head? = some t.pc
  | .seImm x nn => t.pc = s.pc + (if s.getV x = nn then 4#16 else 2#16)
  | .sneImm x nn => t.pc = s.pc + (if s.getV x = nn then 2#16 else 4#16)
  | .seReg x y => t.pc = s.pc + (if s.getV x = s.getV y then 4#16 else 2#16)
  | .sneReg x y => t.pc = s.pc + (if s.getV x = s.getV y then 2#16 else 4#16)
  | .skp x => t.pc = s.pc + (if s.key.down (s.getV x).toNat = true then 4#16 else 2#16)
  | .sknp x => t.pc = s.pc + (if s.key.down (s.getV x).toNat = true then 2#16 else 4#16)
  | .ldVxK _ => (s.someKeyDown → t.pc = s.pc + 2#16) ∧ (¬ s.someKeyDown → t.pc = s.pc)
  | .sys _ | .cls | .ldImm _ _ | .addImm _ _ | .ldReg _ _ | .orReg _ _ | .andReg _ _ | .xorReg _ _
  | .addReg _ _ | .sub _ _ | .shr _ _ | .subn _ _ | .shl _ _ | .ldI _ | .rnd _ _ | .drw _ _ _
  | .ldVxDt _ | .ldDtVx _ | .ldStVx _ | .addI _ | .ldF _ | .ldB _ | .stRegs _ | .ldRegs _
  | .nop5 _ _ _ | .nop8 _ _ _ | .nop9 _ _ _ | .nopE _ _ | .nopF _ _ => t.pc = s.pc + 2#16

/-- `MemBounds(max(base, 0x1000))`, the fault of a range whose lowest address is `base` (R181). -/
def boundsFault (base : Nat) : FaultLatch := .memBounds (BitVec.ofNat 16 (max base 0x1000))

/-- The fault an instruction raises, `NONE` if it raises none: the tables of 60_exceptions.md R181 to
R184. -/
def specInstrFault (s : State) : Instr → FaultLatch
  | .call _ => if stackCapacity ≤ s.sp then .stackOverflow else .none
  | .ret => if s.sp = 0 then .stackUnderflow else .none
  | .skp x | .sknp x => if 15 < (s.getV x).toNat then .keyIndex (s.getV x) else .none
  | .drw _ y n =>
    let rows := min n.toNat (32 - (s.getV y).toNat % 32)
    if 0 < rows ∧ 0xFFF < s.i.toNat + rows - 1 then boundsFault s.i.toNat else .none
  | .ldB _ => if 0xFFF < s.i.toNat + 2 then boundsFault s.i.toNat else .none
  | .stRegs x | .ldRegs x => if 0xFFF < s.i.toNat + x.toNat then boundsFault s.i.toNat else .none
  | .sys _ | .cls | .jp _ | .seImm _ _ | .sneImm _ _ | .seReg _ _ | .ldImm _ _ | .addImm _ _ | .ldReg _ _
  | .orReg _ _ | .andReg _ _ | .xorReg _ _ | .addReg _ _ | .sub _ _ | .shr _ _ | .subn _ _ | .shl _ _
  | .sneReg _ _ | .ldI _ | .jpV0 _ | .rnd _ _ | .ldVxDt _ | .ldVxK _ | .ldDtVx _ | .ldStVx _ | .addI _
  | .ldF _ | .nop5 _ _ _ | .nop8 _ _ _ | .nop9 _ _ _ | .nopE _ _ | .nopF _ _ => .none

/-- The fault a `step()` of a core that is not halted raises: the fetch check first (60_exceptions.md
R181, R189), then the instruction's. -/
def specFault (s : State) : FaultLatch :=
  if 0xFFE < s.pc.toNat then boundsFault s.pc.toNat else specInstrFault s (decodeWord s.fetchWord)

/-- Does the instruction write register `r`? Its destination `VX`, `VF` as a flag (10_state.md R24), the
registers of `FX65`. -/
def writesReg (r : Nibble) : Instr → Prop
  | .orReg x _ | .andReg x _ | .xorReg x _ | .addReg x _ | .sub x _ | .shr x _ | .subn x _ | .shl x _ =>
    r = x ∨ r = 0xF#4
  | .drw _ _ _ => r = 0xF#4
  | .ldImm x _ | .addImm x _ | .ldReg x _ | .rnd x _ | .ldVxDt x | .ldVxK x => r = x
  | .ldRegs x => r.toNat ≤ x.toNat
  | .sys _ | .cls | .ret | .jp _ | .call _ | .seImm _ _ | .sneImm _ _ | .seReg _ _ | .sneReg _ _ | .ldI _
  | .jpV0 _ | .skp _ | .sknp _ | .ldDtVx _ | .ldStVx _ | .addI _ | .ldF _ | .ldB _ | .stRegs _
  | .nop5 _ _ _ | .nop8 _ _ _ | .nop9 _ _ _ | .nopE _ _ | .nopF _ _ => False

/-- May the instruction write the component? The column "written by" of 10_state.md R20, for `step()`.
The draw counter is the model's (log 2). -/
def mayWrite : Component → Instr → Prop
  | .mem, i => (∃ x, i = .ldB x) ∨ ∃ x, i = .stRegs x
  | .v, i => ∃ r, writesReg r i
  | .i, i => (∃ n, i = .ldI n) ∨ (∃ x, i = .addI x) ∨ (∃ x, i = .ldF x) ∨ (∃ x, i = .stRegs x) ∨
      ∃ x, i = .ldRegs x
  | .pc, _ => True
  | .stack, i => i = .ret ∨ ∃ n, i = .call n
  | .dt, i => ∃ x, i = .ldDtVx x
  | .st, i => ∃ x, i = .ldStVx x
  | .fb, i => i = .cls ∨ ∃ x y n, i = .drw x y n
  | .key, _ => False
  | .fault, _ => True
  | .draws, i => ∃ x nn, i = .rnd x nn

/-! ### Sprites -/

/-- Does the sprite of `rows` rows at `base` with origin `(x0, y0)` set pixel `(x, y)`: is its bit there,
on the screen, a 1 (45_display.md R151, R152)? The bit is spelled out, not taken from `spriteBit`: bit
`7 - k` of the row byte stands at column `x0 + k` (R153, the spec's D6, log 4). -/
def spriteCovers (m : Memory) (base y0 x0 rows y x : Nat) : Bool :=
  decide (y0 ≤ y ∧ y < y0 + rows ∧ y < 32 ∧ x0 ≤ x ∧ x < x0 + 8 ∧ x < 64) &&
    (m.get (base + (y - y0))).getLsbD (7 - (x - x0))

/-! ### Reset -/

/-- The values of 10_state.md R45, piece by piece of the spec's state. No byte of the font table is spelled
out (log 3), and there is no stack entry that is not live (log 5). -/
def State.hasResetValues (s : State) : Prop :=
  (∀ a, 0x050 ≤ a → a ≤ 0x09F → s.mem.get a = font.getD (a - 0x050) 0x00#8) ∧
    (∀ a, a < 0x050 ∨ 0x09F < a → s.mem.get a = 0x00#8) ∧
    (∀ r, s.getV r = 0x00#8) ∧ s.i = 0x0000#16 ∧ s.pc = 0x0200#16 ∧ s.sp = 0 ∧
    s.dt = 0x00#8 ∧ s.st = 0x00#8 ∧ (∀ y x, s.fb.pixel y x = false) ∧ (∀ k, s.key.down k = false) ∧
    s.fault = .none

end Sys2Proof.Machine
end

