-- ==== Sys2Proof/Certificates/Slice0/Obligations.lean ====
section
/-! DEFINITION. The statements for the provers. A docstring names the rule or section of spec/ that its
statement formalises, and the log entry wherever the statement rests on a decision that is not a plain
rule. -/

open Sys2Proof Sys2Proof.Machine

/-! ### Encoding -/

/-- Decoding an encoded well-formed instruction gives it back, every operand at every value
(30_encoding.md sections 2 to 5). -/
def Obligations.DecodeEncodeRoundTrip : Prop :=
  ∀ i : Instr, i.wf = true → decodeWord (encode i) = i

/-- Every 16-bit value decodes to a well-formed instruction whose encoding is that value: decoding is
total and no bit is lost (30_encoding.md section 4). -/
def Obligations.EncodeDecodeRoundTrip : Prop :=
  ∀ w : Word, (decodeWord w).wf = true ∧ encode (decodeWord w) = w

/-- The opcode table of 30_encoding.md section 5 by mask and match, priority-1 rows last, with the fields
taken from the opcode as a number. That families 5 and 9 with a non-zero low nibble are no-ops is the
spec's decision D13 (log 13). -/
def Obligations.DecodeSelectsByMaskAndMatch : Prop :=
  ∀ w : Word,
    let x : Nibble := BitVec.ofNat 4 (w.toNat / 0x100)
    let y : Nibble := BitVec.ofNat 4 (w.toNat / 0x10)
    let n : Nibble := BitVec.ofNat 4 w.toNat
    let nn : Byte := BitVec.ofNat 8 w.toNat
    let nnn : Addr12 := BitVec.ofNat 12 w.toNat
    let xss (c : Word) : Prop := w &&& 0xF0FF#16 = c
    let xyn (c : Word) : Prop := w &&& 0xF00F#16 = c
    let fam (c : Word) : Prop := w &&& 0xF000#16 = c
    (w = 0x00E0#16 → decodeWord w = .cls) ∧ (w = 0x00EE#16 → decodeWord w = .ret) ∧
    (fam 0x0000#16 → w ≠ 0x00E0#16 → w ≠ 0x00EE#16 → decodeWord w = .sys nnn) ∧
    (fam 0x1000#16 → decodeWord w = .jp nnn) ∧ (fam 0x2000#16 → decodeWord w = .call nnn) ∧
    (fam 0x3000#16 → decodeWord w = .seImm x nn) ∧ (fam 0x4000#16 → decodeWord w = .sneImm x nn) ∧
    (xyn 0x5000#16 → decodeWord w = .seReg x y) ∧
    (fam 0x5000#16 → ¬ xyn 0x5000#16 → decodeWord w = .nop5 x y n) ∧
    (fam 0x6000#16 → decodeWord w = .ldImm x nn) ∧ (fam 0x7000#16 → decodeWord w = .addImm x nn) ∧
    (xyn 0x8000#16 → decodeWord w = .ldReg x y) ∧ (xyn 0x8001#16 → decodeWord w = .orReg x y) ∧
    (xyn 0x8002#16 → decodeWord w = .andReg x y) ∧ (xyn 0x8003#16 → decodeWord w = .xorReg x y) ∧
    (xyn 0x8004#16 → decodeWord w = .addReg x y) ∧ (xyn 0x8005#16 → decodeWord w = .sub x y) ∧
    (xyn 0x8006#16 → decodeWord w = .shr x y) ∧ (xyn 0x8007#16 → decodeWord w = .subn x y) ∧
    (xyn 0x800E#16 → decodeWord w = .shl x y) ∧
    (fam 0x8000#16 →
      (∀ c ∈ [0x8000#16, 0x8001#16, 0x8002#16, 0x8003#16, 0x8004#16, 0x8005#16, 0x8006#16, 0x8007#16,
        0x800E#16], ¬ xyn c) → decodeWord w = .nop8 x y n) ∧
    (xyn 0x9000#16 → decodeWord w = .sneReg x y) ∧
    (fam 0x9000#16 → ¬ xyn 0x9000#16 → decodeWord w = .nop9 x y n) ∧
    (fam 0xA000#16 → decodeWord w = .ldI nnn) ∧ (fam 0xB000#16 → decodeWord w = .jpV0 nnn) ∧
    (fam 0xC000#16 → decodeWord w = .rnd x nn) ∧ (fam 0xD000#16 → decodeWord w = .drw x y n) ∧
    (xss 0xE09E#16 → decodeWord w = .skp x) ∧ (xss 0xE0A1#16 → decodeWord w = .sknp x) ∧
    (fam 0xE000#16 → ¬ xss 0xE09E#16 → ¬ xss 0xE0A1#16 → decodeWord w = .nopE x nn) ∧
    (xss 0xF007#16 → decodeWord w = .ldVxDt x) ∧ (xss 0xF00A#16 → decodeWord w = .ldVxK x) ∧
    (xss 0xF015#16 → decodeWord w = .ldDtVx x) ∧ (xss 0xF018#16 → decodeWord w = .ldStVx x) ∧
    (xss 0xF01E#16 → decodeWord w = .addI x) ∧ (xss 0xF029#16 → decodeWord w = .ldF x) ∧
    (xss 0xF033#16 → decodeWord w = .ldB x) ∧ (xss 0xF055#16 → decodeWord w = .stRegs x) ∧
    (xss 0xF065#16 → decodeWord w = .ldRegs x) ∧
    (fam 0xF000#16 →
      (∀ c ∈ [0xF007#16, 0xF00A#16, 0xF015#16, 0xF018#16, 0xF01E#16, 0xF029#16, 0xF033#16, 0xF055#16,
        0xF065#16], ¬ xss c) → decodeWord w = .nopF x nn)

/-- The decoding vectors V-E1 to V-E9 of 95_test_vectors.md, words written out bit by bit, and the byte
order on `12 34`. -/
def Obligations.WordsOfTheDecodingVectors : Prop :=
  decodeWord 0b1101100110100101#16 = .drw 0x9#4 0xA#4 0x5#4 ∧
  decodeWord 0b0011110001111111#16 = .seImm 0xC#4 0x7F#8 ∧
  decodeWord 0b0010111111101101#16 = .call 0xFED#12 ∧
  decodeWord 0b1111111001100101#16 = .ldRegs 0xE#4 ∧
  decodeWord 0b1000101010110111#16 = .subn 0xA#4 0xB#4 ∧
  decodeWord 0b1000101010111110#16 = .shl 0xA#4 0xB#4 ∧
  decodeWord 0b1000101010111001#16 = .nop8 0xA#4 0xB#4 0x9#4 ∧
  decodeWord 0b0000000011100000#16 = .cls ∧ decodeWord 0b0000000011101110#16 = .ret ∧
  decodeBytes [0x12#8, 0x34#8] = .ok (.jp 0x234#12, [])

/-! ### The step -/

/-- `step()` (30_encoding.md R70; that a halted core does not change is the spec's decision D11, log 8):
the fetch raises `MemBounds` when `pc` or `pc + 1` is above 0xFFF; otherwise the step is the decoded
instruction, the byte at `pc` being bits 15..8 of the opcode. -/
def Obligations.StepRunsDecodedInstruction : Prop :=
  ∀ s : State,
    (s.fault ≠ .none → step s = .next s) ∧
    (s.fault = .none → 0xFFF < s.pc.toNat → step s = .next { s with fault := .memBounds s.pc }) ∧
    (s.fault = .none → s.pc = 0x0FFF#16 → step s = .next { s with fault := .memBounds 0x1000#16 }) ∧
    (s.fault = .none → s.pc.toNat ≤ 0xFFE →
      step s = exec (decodeWord (BitVec.ofNat 16
        (256 * (s.mem.get s.pc.toNat).toNat + (s.mem.get (s.pc.toNat + 1)).toNat))) s)

/-- A word placed by `withFetchWord` is the instruction the very next step runs, from any state whose
memory is in canonical form. It speaks of the model's stand-in for a load (log 19). -/
def Obligations.PlacedWordRunsNext : Prop :=
  ∀ (w : Word) (s : State), s.mem.wf = true →
    step (s.withFetchWord 16 w.toNat) = exec (decodeWord w) (s.withFetchWord 16 w.toNat)

/-! ### Registers: constants, copies, arithmetic -/

/-- `6XNN` (42_const.md R120). -/
def Obligations.LoadImmediate : Prop :=
  ∀ (x : Nibble) (nn : Byte) (s : State),
    decodeWord (formatXNN 0x6#4 x nn) = .ldImm x nn ∧
    ∃ t, exec (.ldImm x nn) s = .next t ∧ resultEffect s t x nn

/-- `7XNN` (42_const.md R121): the sum modulo 256, no flag, also when `X` names `VF`. -/
def Obligations.AddImmediate : Prop :=
  ∀ (x : Nibble) (nn : Byte) (s : State),
    decodeWord (formatXNN 0x7#4 x nn) = .addImm x nn ∧
    ∃ t, exec (.addImm x nn) s = .next t ∧
      resultEffect s t x (BitVec.ofNat 8 (((s.getV x).toNat + nn.toNat) % 256)) ∧
      (x ≠ 0xF#4 → t.getV 0xF#4 = s.getV 0xF#4)

/-- `8XY0` (43_alu.md R126). -/
def Obligations.CopyRegister : Prop :=
  ∀ (x y : Nibble) (s : State),
    decodeWord (formatXYN 0x8#4 x y 0x0#4) = .ldReg x y ∧
    ∃ t, exec (.ldReg x y) s = .next t ∧ resultEffect s t x (s.getV y)

/-- `8XY1`, `8XY2`, `8XY3` (43_alu.md R127 to R129): bit by bit, and `VF` is 0 always. -/
def Obligations.LogicClearsFlag : Prop :=
  ∀ (x y : Nibble) (s : State),
    decodeWord (formatXYN 0x8#4 x y 0x1#4) = .orReg x y ∧
    decodeWord (formatXYN 0x8#4 x y 0x2#4) = .andReg x y ∧
    decodeWord (formatXYN 0x8#4 x y 0x3#4) = .xorReg x y ∧
    (∃ t, exec (.orReg x y) s = .next t ∧ flaggedEffect s t x (s.getV x ||| s.getV y) 0x00#8) ∧
    (∃ t, exec (.andReg x y) s = .next t ∧ flaggedEffect s t x (s.getV x &&& s.getV y) 0x00#8) ∧
    (∃ t, exec (.xorReg x y) s = .next t ∧ flaggedEffect s t x (s.getV x ^^^ s.getV y) 0x00#8)

/-- `8XY4` (43_alu.md R130): sum modulo 256, carry in `VF`, written last. -/
def Obligations.AddWithCarryOut : Prop :=
  ∀ (x y : Nibble) (s : State),
    decodeWord (formatXYN 0x8#4 x y 0x4#4) = .addReg x y ∧
    ∃ t, exec (.addReg x y) s = .next t ∧
      flaggedEffect s t x (BitVec.ofNat 8 (((s.getV x).toNat + (s.getV y).toNat) % 256))
        (if 255 < (s.getV x).toNat + (s.getV y).toNat then 0x01#8 else 0x00#8)

/-- `8XY5` and `8XY7` (43_alu.md R131, R133): difference modulo 256, no borrow in `VF`, 1 on equality. -/
def Obligations.SubtractWithNoBorrow : Prop :=
  ∀ (x y : Nibble) (s : State),
    decodeWord (formatXYN 0x8#4 x y 0x5#4) = .sub x y ∧
    decodeWord (formatXYN 0x8#4 x y 0x7#4) = .subn x y ∧
    (∃ t, exec (.sub x y) s = .next t ∧
      flaggedEffect s t x (BitVec.ofInt 8 (((s.getV x).toNat - (s.getV y).toNat : Int) % 256))
        (if (s.getV y).toNat ≤ (s.getV x).toNat then 0x01#8 else 0x00#8)) ∧
    (∃ t, exec (.subn x y) s = .next t ∧
      flaggedEffect s t x (BitVec.ofInt 8 (((s.getV y).toNat - (s.getV x).toNat : Int) % 256))
        (if (s.getV x).toNat ≤ (s.getV y).toNat then 0x01#8 else 0x00#8))

/-- `8XY6` and `8XYE` (43_alu.md R132, R134): the source is `VY`, the old `VX` is not used, the bit
shifted out goes to `VF`. -/
def Obligations.ShiftsReadVY : Prop :=
  ∀ (x y : Nibble) (s : State),
    decodeWord (formatXYN 0x8#4 x y 0x6#4) = .shr x y ∧
    decodeWord (formatXYN 0x8#4 x y 0xE#4) = .shl x y ∧
    (∃ t, exec (.shr x y) s = .next t ∧
      flaggedEffect s t x (BitVec.ofNat 8 ((s.getV y).toNat / 2))
        (BitVec.ofNat 8 ((s.getV y).toNat % 2))) ∧
    (∃ t, exec (.shl x y) s = .next t ∧
      flaggedEffect s t x (BitVec.ofNat 8 (2 * (s.getV y).toNat % 256))
        (BitVec.ofNat 8 ((s.getV y).toNat / 128)))

/-! ### Skips and control transfer -/

/-- `3XNN`, `4XNN` (41_skip.md R110, R111); a skip at 0xFFC does not fault, the next fetch does. -/
def Obligations.SkipsOnImmediate : Prop :=
  ∀ (x : Nibble) (nn : Byte) (s : State),
    decodeWord (formatXNN 0x3#4 x nn) = .seImm x nn ∧ decodeWord (formatXNN 0x4#4 x nn) = .sneImm x nn ∧
    (∃ t, exec (.seImm x nn) s = .next t ∧ skipEffect s t (s.getV x = nn) ∧
      (s.pc = 0x0FFC#16 → s.getV x = nn → s.fault = .none →
        step t = .next { t with fault := .memBounds 0x1000#16 })) ∧
    (∃ t, exec (.sneImm x nn) s = .next t ∧ skipEffect s t (s.getV x ≠ nn))

/-- `5XY0`, `9XY0` (41_skip.md R112, R113). -/
def Obligations.SkipsOnRegisters : Prop :=
  ∀ (x y : Nibble) (s : State),
    decodeWord (formatXYN 0x5#4 x y 0x0#4) = .seReg x y ∧
    decodeWord (formatXYN 0x9#4 x y 0x0#4) = .sneReg x y ∧
    (∃ t, exec (.seReg x y) s = .next t ∧ skipEffect s t (s.getV x = s.getV y)) ∧
    (∃ t, exec (.sneReg x y) s = .next t ∧ skipEffect s t (s.getV x ≠ s.getV y))

/-- `1NNN` (40_flow.md R101): any target, odd or low too; a jump to itself changes nothing; after a jump
to 0xFFF the next step faults at fetch. -/
def Obligations.JumpToAddress : Prop :=
  ∀ (nnn : Addr12) (s : State),
    decodeWord (formatNNN 0x1#4 nnn) = .jp nnn ∧
    ∃ t, exec (.jp nnn) s = .next t ∧ t.pc.toNat = nnn.toNat ∧ keepsAllBut [.pc] s t ∧
      (s.pc.toNat = nnn.toNat → t = s) ∧
      (nnn = 0xFFF#12 → s.fault = .none → step t = .next { t with fault := .memBounds 0x1000#16 })

/-- `BNNN` (40_flow.md): the target is `NNN + V0`, always `V0`. That the sum is reduced neither to 12 bits
nor by wrapping, and that a sum above 0xFFE faults at the next fetch, is the spec's decision D2 (log 9). -/
def Obligations.JumpWithOffset : Prop :=
  ∀ (nnn : Addr12) (s : State),
    decodeWord (formatNNN 0xB#4 nnn) = .jpV0 nnn ∧
    ∃ t, exec (.jpV0 nnn) s = .next t ∧ t.pc.toNat = nnn.toNat + (s.getV 0x0#4).toNat ∧
      keepsAllBut [.pc] s t ∧
      (0xFFE < nnn.toNat + (s.getV 0x0#4).toNat → s.fault = .none →
        step t = .next { t with fault := boundsFault (nnn.toNat + (s.getV 0x0#4).toNat) })

/-- `2NNN` (40_flow.md R102): pushes `pc + 2` as entry `STACK[SP]` and jumps; on a full stack it raises
`StackOverflow` with nothing else changed; below a depth of 12 it never faults, whatever the capacity. -/
def Obligations.CallPushesReturnAddress : Prop :=
  ∀ (nnn : Addr12) (s : State),
    decodeWord (formatNNN 0x2#4 nnn) = .call nnn ∧
    (s.sp < stackCapacity → ∃ t, exec (.call nnn) s = .next t ∧ t.pc.toNat = nnn.toNat ∧
      t.stack = (s.pc + 2#16) :: s.stack ∧ t.sp = s.sp + 1 ∧ t.stackEntry s.sp = some (s.pc + 2#16) ∧
      keepsAllBut [.pc, .stack] s t) ∧
    (s.sp = stackCapacity → exec (.call nnn) s = .next { s with fault := .stackOverflow }) ∧
    (s.sp < 12 → ∃ t, exec (.call nnn) s = .next t ∧ t.fault = s.fault)

/-- `00EE` (40_flow.md R100): pops the newest entry into `pc`, advanced no further; on an empty stack it
raises `StackUnderflow` with nothing else changed; a popped value above 0xFFE faults at the next fetch. -/
def Obligations.ReturnPopsIntoPc : Prop :=
  ∀ s : State,
    decodeWord 0x00EE#16 = .ret ∧
    (∀ w rest, s.stack = w :: rest → ∃ t, exec .ret s = .next t ∧ t.pc = w ∧ t.stack = rest ∧
      t.sp + 1 = s.sp ∧ s.stackEntry t.sp = some w ∧ keepsAllBut [.pc, .stack] s t ∧
      (0xFFE < w.toNat → s.fault = .none → step t = .next { t with fault := boundsFault w.toNat })) ∧
    (s.sp = 0 → exec .ret s = .next { s with fault := .stackUnderflow })

/-- A call and then a return, from whatever `pc` the subroutine ends at, give back the state with `pc` at
the instruction after the call (40_flow.md, property S6 of 95_test_vectors.md). -/
def Obligations.CallThenReturnRoundTrip : Prop :=
  ∀ (nnn : Addr12) (s t u : State), s.sp < stackCapacity →
    exec (.call nnn) s = .next t → t.setPc u.pc = u →
    exec .ret u = .next (s.setPc (s.pc + 2#16))

/-! ### Index register and memory -/

/-- `ANNN` (44_index_memory.md R140). -/
def Obligations.LoadIndex : Prop :=
  ∀ (nnn : Addr12) (s : State),
    decodeWord (formatNNN 0xA#4 nnn) = .ldI nnn ∧
    ∃ t, exec (.ldI nnn) s = .next t ∧ t.i.toNat = nnn.toNat ∧ t.pc = s.pc + 2#16 ∧
      keepsAllBut [.i, .pc] s t

/-- `FX1E` (44_index_memory.md): `I + VX`, no flag, no fault. That the sum is reduced modulo 65536 is the
spec's decision D3 (log 10). -/
def Obligations.AddToIndex : Prop :=
  ∀ (x : Nibble) (s : State),
    decodeWord (formatXNN 0xF#4 x 0x1E#8) = .addI x ∧
    ∃ t, exec (.addI x) s = .next t ∧ t.i.toNat = (s.i.toNat + (s.getV x).toNat) % 65536 ∧
      t.pc = s.pc + 2#16 ∧ keepsAllBut [.i, .pc] s t

/-- `FX29` (44_index_memory.md R142): only the low nibble of `VX` counts. -/
def Obligations.GlyphAddress : Prop :=
  ∀ (x : Nibble) (s : State),
    decodeWord (formatXNN 0xF#4 x 0x29#8) = .ldF x ∧
    ∃ t, exec (.ldF x) s = .next t ∧ t.i.toNat = 0x050 + ((s.getV x).toNat % 16) * 5 ∧
      t.pc = s.pc + 2#16 ∧ keepsAllBut [.i, .pc] s t

/-- `FX33` (44_index_memory.md R143): three digit bytes at `I`, `I+1`, `I+2`; or `MemBounds` with nothing
else changed. -/
def Obligations.StoreDecimalDigits : Prop :=
  ∀ (x : Nibble) (s : State),
    decodeWord (formatXNN 0xF#4 x 0x33#8) = .ldB x ∧
    (s.mem.wf = true → s.i.toNat + 2 ≤ 0xFFF → ∃ t, exec (.ldB x) s = .next t ∧
      (t.mem.get s.i.toNat).toNat = (s.getV x).toNat / 100 ∧
      (t.mem.get (s.i.toNat + 1)).toNat = (s.getV x).toNat / 10 % 10 ∧
      (t.mem.get (s.i.toNat + 2)).toNat = (s.getV x).toNat % 10 ∧
      (∀ a, a < s.i.toNat ∨ s.i.toNat + 2 < a → t.mem.get a = s.mem.get a) ∧
      t.pc = s.pc + 2#16 ∧ keepsAllBut [.mem, .pc] s t) ∧
    (0xFFF < s.i.toNat + 2 → exec (.ldB x) s = .next { s with fault := boundsFault s.i.toNat })

/-- `FX55` (44_index_memory.md R145, R144): `V[k]` at `I + k` for `k = 0..X`, `I` increased by `X`; or
`MemBounds` with nothing else changed. -/
def Obligations.StoreRegisters : Prop :=
  ∀ (x : Nibble) (s : State),
    decodeWord (formatXNN 0xF#4 x 0x55#8) = .stRegs x ∧
    (s.mem.wf = true → s.i.toNat + x.toNat ≤ 0xFFF → ∃ t, exec (.stRegs x) s = .next t ∧
      (∀ k : Nibble, k.toNat ≤ x.toNat → t.mem.get (s.i.toNat + k.toNat) = s.getV k) ∧
      (∀ a, a < s.i.toNat ∨ s.i.toNat + x.toNat < a → t.mem.get a = s.mem.get a) ∧
      t.i.toNat = (s.i.toNat + x.toNat) % 65536 ∧ t.pc = s.pc + 2#16 ∧
      keepsAllBut [.mem, .i, .pc] s t) ∧
    (0xFFF < s.i.toNat + x.toNat →
      exec (.stRegs x) s = .next { s with fault := boundsFault s.i.toNat })

/-- `FX65` (44_index_memory.md R146, R144): `V[k]` from `I + k` for `k = 0..X`, the registers above
unchanged, `I` increased by `X`; or `MemBounds` with nothing else changed. -/
def Obligations.LoadRegisters : Prop :=
  ∀ (x : Nibble) (s : State),
    decodeWord (formatXNN 0xF#4 x 0x65#8) = .ldRegs x ∧
    (s.i.toNat + x.toNat ≤ 0xFFF → ∃ t, exec (.ldRegs x) s = .next t ∧
      (∀ k : Nibble, k.toNat ≤ x.toNat → t.getV k = s.mem.get (s.i.toNat + k.toNat)) ∧
      (∀ k : Nibble, x.toNat < k.toNat → t.getV k = s.getV k) ∧
      t.i.toNat = (s.i.toNat + x.toNat) % 65536 ∧ t.pc = s.pc + 2#16 ∧
      keepsAllBut [.v, .i, .pc] s t) ∧
    (0xFFF < s.i.toNat + x.toNat →
      exec (.ldRegs x) s = .next { s with fault := boundsFault s.i.toNat })

/-- `FX55` then `FX65` with the same `X` and `I` set back gives all of `V0..VX` their values again,
whatever became of the registers between (property S7 of 95_test_vectors.md). -/
def Obligations.StoreThenLoadRegisters : Prop :=
  ∀ (x : Nibble) (s t u : State), s.mem.wf = true → s.i.toNat + x.toNat ≤ 0xFFF →
    exec (.stRegs x) s = .next t → u.mem = t.mem → u.i = s.i →
    ∃ w, exec (.ldRegs x) u = .next w ∧ (∀ k : Nibble, k.toNat ≤ x.toNat → w.getV k = s.getV k) ∧
      w.i = t.i

/-- A store by `FX55` or `FX33` is seen by the fetch of the next step (20_memory.md section 10): the opcode
there is the stored byte wherever the store covers `pc + 2` or `pc + 3`, whole or in part, and the old byte
elsewhere. -/
def Obligations.StoredBytesAreFetchedNext : Prop :=
  ∀ (x : Nibble) (s : State), s.mem.wf = true → s.fault = .none → s.pc.toNat + 3 ≤ 0xFFF →
    let base := s.i.toNat
    let v := (s.getV x).toNat
    let regByte (a : Nat) : Nat :=
      if base ≤ a ∧ a ≤ base + x.toNat then (s.getV (BitVec.ofNat 4 (a - base))).toNat
      else (s.mem.get a).toNat
    let digitByte (a : Nat) : Nat :=
      if a = base then v / 100 else if a = base + 1 then v / 10 % 10
      else if a = base + 2 then v % 10 else (s.mem.get a).toNat
    (base + x.toNat ≤ 0xFFF → ∃ t, exec (.stRegs x) s = .next t ∧
      step t = exec (decodeWord (BitVec.ofNat 16
        (256 * regByte (s.pc.toNat + 2) + regByte (s.pc.toNat + 3)))) t) ∧
    (base + 2 ≤ 0xFFF → ∃ t, exec (.ldB x) s = .next t ∧
      step t = exec (decodeWord (BitVec.ofNat 16
        (256 * digitByte (s.pc.toNat + 2) + digitByte (s.pc.toNat + 3)))) t)

/-! ### Display -/

/-- `00E0` (45_display.md R150): every pixel off, whatever the screen held; `VF` and all else unchanged. -/
def Obligations.ClearScreen : Prop :=
  ∀ s : State, decodeWord 0x00E0#16 = .cls ∧
    ∃ t, exec .cls s = .next t ∧ (∀ y x, t.fb.pixel y x = false) ∧ t.pc = s.pc + 2#16 ∧
      keepsAllBut [.fb, .pc] s t

/-- `DXYN` (45_display.md): the pixels the visible part of the sprite covers are toggled and no other,
`VF` says whether a covered pixel was on, all else is unchanged; or `MemBounds` with nothing else changed.
Bit `7 - k` of a row byte is at column `x0 + k`, which `spriteCovers` spells out (D6, from general knowledge,
log 4); clipped rows are not read by decision D12 (log 12). -/
def Obligations.DrawTogglesCoveredPixels : Prop :=
  ∀ (x y n : Nibble) (s : State),
    let x0 := (s.getV x).toNat % 64
    let y0 := (s.getV y).toNat % 32
    let rows := min n.toNat (32 - y0)
    let covers := spriteCovers s.mem s.i.toNat y0 x0 rows
    decodeWord (formatXYN 0xD#4 x y n) = .drw x y n ∧
    (rows = 0 ∨ s.i.toNat + rows - 1 ≤ 0xFFF → ∃ t, exec (.drw x y n) s = .next t ∧
      (∀ py px, t.fb.pixel py px = (s.fb.pixel py px ^^ covers py px)) ∧
      ((∃ py px, covers py px = true ∧ s.fb.pixel py px = true) → t.getV 0xF#4 = 0x01#8) ∧
      ((∀ py px, covers py px = true → s.fb.pixel py px = false) → t.getV 0xF#4 = 0x00#8) ∧
      (∀ r, r ≠ 0xF#4 → t.getV r = s.getV r) ∧ t.pc = s.pc + 2#16 ∧ keepsAllBut [.fb, .v, .pc] s t) ∧
    (0 < rows → 0xFFF < s.i.toNat + rows - 1 →
      exec (.drw x y n) s = .next { s with fault := boundsFault s.i.toNat })

/-- A sprite of no rows draws nothing, reads no memory, cannot fault whatever `I` is, and clears `VF`
(45_display.md, derived by the spec at R152 (c); 90_conflicts.md C9). -/
def Obligations.DrawOfNoRows : Prop :=
  ∀ (x y : Nibble) (s : State), ∃ t, exec (.drw x y 0x0#4) s = .next t ∧ t.getV 0xF#4 = 0x00#8 ∧
    (∀ r, r ≠ 0xF#4 → t.getV r = s.getV r) ∧ t.pc = s.pc + 2#16 ∧ keepsAllBut [.v, .pc] s t

/-- Drawing the same sprite at the same place twice gives the screen back; on a region that was clear `VF`
is 0 after the first draw, and 1 after the second if the sprite has a visible set bit (45_display.md,
property S5 of 95_test_vectors.md). Neither coordinate register is `VF`, which the first draw rewrites. The
covered pixels follow the bit order of D6 (log 4). -/
def Obligations.DrawTwiceRestoresScreen : Prop :=
  ∀ (x y n : Nibble) (s t : State), x ≠ 0xF#4 → y ≠ 0xF#4 → s.i.toNat + n.toNat ≤ 0x1000 →
    exec (.drw x y n) s = .next t →
    let y0 := (s.getV y).toNat % 32
    let covers := spriteCovers s.mem s.i.toNat y0 ((s.getV x).toNat % 64) (min n.toNat (32 - y0))
    ∃ u, exec (.drw x y n) t = .next u ∧ (∀ py px, u.fb.pixel py px = s.fb.pixel py px) ∧
      ((∀ py px, covers py px = true → s.fb.pixel py px = false) →
        t.getV 0xF#4 = 0x00#8 ∧
        ((∃ py px, covers py px = true) → u.getV 0xF#4 = 0x01#8))

/-! ### Keys, timers, random -/

/-- `EX9E`, `EXA1` (46_key_timer_random.md): a value 0..15 of `VX` names a key. A larger value raises
`KeyIndex` with nothing else changed, the spec's decision D8 (log 11). -/
def Obligations.SkipsOnKey : Prop :=
  ∀ (x : Nibble) (s : State),
    decodeWord (formatXNN 0xE#4 x 0x9E#8) = .skp x ∧ decodeWord (formatXNN 0xE#4 x 0xA1#8) = .sknp x ∧
    ((s.getV x).toNat ≤ 15 →
      (∃ t, exec (.skp x) s = .next t ∧ skipEffect s t (s.key.down (s.getV x).toNat = true)) ∧
      (∃ t, exec (.sknp x) s = .next t ∧ skipEffect s t (s.key.down (s.getV x).toNat = false))) ∧
    (15 < (s.getV x).toNat →
      exec (.skp x) s = .next { s with fault := .keyIndex (s.getV x) } ∧
      exec (.sknp x) s = .next { s with fault := .keyIndex (s.getV x) })

/-- `FX0A` (46_key_timer_random.md R162): the least key that is down goes to `VX`; with no key down the
step changes nothing, and ticks and key events in between act as ever. -/
def Obligations.WaitForKey : Prop :=
  ∀ (x : Nibble) (s : State),
    decodeWord (formatXNN 0xF#4 x 0x0A#8) = .ldVxK x ∧
    (∀ k, s.key.down k = true → (∀ j, j < k → s.key.down j = false) →
      ∃ t, exec (.ldVxK x) s = .next t ∧ resultEffect s t x (BitVec.ofNat 8 k)) ∧
    ((∀ k, k < 16 → s.key.down k = false) →
      exec (.ldVxK x) s = .next s ∧ exec (.ldVxK x) (tickTimers s) = .next (tickTimers s) ∧
      ∀ key k, key.down k = true → (∀ j, j < k → key.down j = false) →
        ∃ t, exec (.ldVxK x) (setKeys key s) = .next t ∧ t.getV x = BitVec.ofNat 8 k)

/-- `FX07`, `FX15`, `FX18` (46_key_timer_random.md R163 to R165). -/
def Obligations.TimersReadAndSet : Prop :=
  ∀ (x : Nibble) (s : State),
    decodeWord (formatXNN 0xF#4 x 0x07#8) = .ldVxDt x ∧
    decodeWord (formatXNN 0xF#4 x 0x15#8) = .ldDtVx x ∧
    decodeWord (formatXNN 0xF#4 x 0x18#8) = .ldStVx x ∧
    (∃ t, exec (.ldVxDt x) s = .next t ∧ resultEffect s t x s.dt) ∧
    (∃ t, exec (.ldDtVx x) s = .next t ∧ t.dt = s.getV x ∧ t.pc = s.pc + 2#16 ∧
      keepsAllBut [.dt, .pc] s t) ∧
    (∃ t, exec (.ldStVx x) s = .next t ∧ t.st = s.getV x ∧ t.pc = s.pc + 2#16 ∧
      keepsAllBut [.st, .pc] s t)

/-- `CXNN` (46_key_timer_random.md): `VX` is `NN` and the drawn byte, so no bit outside `NN` is set. The
draw is the model's free value at the draw counter, which then advances (log 2, the spec's decision D19);
`rndWith` shows the effect for every byte a source could give. -/
def Obligations.RandomIsMaskedDraw : Prop :=
  ∀ (x : Nibble) (nn : Byte) (s : State),
    decodeWord (formatXNN 0xC#4 x nn) = .rnd x nn ∧
    exec (.rnd x nn) s = rndWith (Config.randomByte s.draws) x nn s ∧
    (∃ t, exec (.rnd x nn) s = .next t ∧ t.getV x &&& ~~~nn = 0x00#8 ∧
      (∀ r, r ≠ x → t.getV r = s.getV r) ∧ t.pc = s.pc + 2#16 ∧ t.draws = s.draws + 1 ∧
      keepsAllBut [.v, .pc, .draws] s t) ∧
    (∀ b, ∃ t, rndWith b x nn s = .next t ∧ (∀ r, t.getV r = if r = x then nn &&& b else s.getV r) ∧
      t.pc = s.pc + 2#16 ∧ t.draws = s.draws + 1 ∧ keepsAllBut [.v, .pc, .draws] s t)

/-! ### No-ops -/

/-- `0NNN` and the unknown sub-opcodes of families 8, E and F (47_noop.md R170, R172, R174, R175): only
`pc` changes, by 2, in every state. -/
def Obligations.UnknownOpcodesOnlyAdvance : Prop :=
  ∀ (x y n : Nibble) (nn : Byte) (nnn : Addr12) (s : State),
    (nnn ≠ 0x0E0#12 → nnn ≠ 0x0EE#12 → decodeWord (formatNNN 0x0#4 nnn) = .sys nnn) ∧
    (n ∈ [0x8#4, 0x9#4, 0xA#4, 0xB#4, 0xC#4, 0xD#4, 0xF#4] →
      decodeWord (formatXYN 0x8#4 x y n) = .nop8 x y n) ∧
    (nn ∉ [0x9E#8, 0xA1#8] → decodeWord (formatXNN 0xE#4 x nn) = .nopE x nn) ∧
    (nn ∉ [0x07#8, 0x0A#8, 0x15#8, 0x18#8, 0x1E#8, 0x29#8, 0x33#8, 0x55#8, 0x65#8] →
      decodeWord (formatXNN 0xF#4 x nn) = .nopF x nn) ∧
    (∃ t, exec (.sys nnn) s = .next t ∧ noopEffect s t) ∧
    (∃ t, exec (.nop8 x y n) s = .next t ∧ noopEffect s t) ∧
    (∃ t, exec (.nopE x nn) s = .next t ∧ noopEffect s t) ∧
    (∃ t, exec (.nopF x nn) s = .next t ∧ noopEffect s t)

/-- Families 5 and 9 with a non-zero low nibble compare nothing and never skip: only `pc` changes, by 2.
The spec's decision D13 (log 13). -/
def Obligations.UncomparedSkipsOnlyAdvance : Prop :=
  ∀ (x y n : Nibble) (s : State),
    (n ≠ 0x0#4 → decodeWord (formatXYN 0x5#4 x y n) = .nop5 x y n ∧
      decodeWord (formatXYN 0x9#4 x y n) = .nop9 x y n) ∧
    (∃ t, exec (.nop5 x y n) s = .next t ∧ noopEffect s t) ∧
    (∃ t, exec (.nop9 x y n) s = .next t ∧ noopEffect s t)

/-! ### The whole machine -/

/-- The table of 10_state.md R28: how every step that does not fault leaves `pc`; a step that faults
leaves it unchanged. -/
def Obligations.NextPcFollowsTable : Prop :=
  ∀ s t : State, s.fault = .none → step s = .next t →
    (t.fault = .none → specNextPc s t (decodeWord s.fetchWord)) ∧ (t.fault ≠ .none → t.pc = s.pc)

/-- Every step of a core that is not halted answers a next state, and its latch is exactly the fault of
the tables in 60_exceptions.md section 1, `NONE` where they give none: no opcode is illegal and nothing
else faults. It rests on the spec's decisions D2, D8, D9 and D12 (logs 9, 11, 12, 20). -/
def Obligations.FaultsExactlyAsTabled : Prop :=
  ∀ s : State, s.fault = .none → ∃ t, step s = .next t ∧ t.fault = specFault s

/-- A step that faults changes the latch and nothing else, not even part of a transfer. The spec's decision
D10 (log 7). -/
def Obligations.FaultingStepChangesOnlyLatch : Prop :=
  ∀ s t : State, s.fault = .none → step s = .next t → t.fault ≠ .none → t = { s with fault := t.fault }

/-- Under every event but `reset` a halted core keeps its first fault, the spec's decision D11 (log 8);
`reset` acts on it too, clears it and puts `pc` at 0x200, the spec's decision D18 (log 18)
(60_exceptions.md section 2, 70_reset_and_hazards.md section 1). -/
def Obligations.OnlyResetLeavesHalt : Prop :=
  ∀ (e : Event) (s t : State), s.halted → transition e s = .next t →
    (e ≠ .reset → t.fault = s.fault) ∧ (e = .reset → ¬ t.halted ∧ t.pc = 0x0200#16)

/-- Each piece of state is written only by the instructions that 10_state.md section 1 lists for it; the
key vector by none. -/
def Obligations.OnlyListedInstructionsWrite : Prop :=
  ∀ (c : Component) (i : Instr) (s t : State), exec i s = .next t → ¬ mayWrite c i → keeps s t c

/-- No instruction writes a register it does not name, but for `VF` as a flag and `V0..VX` in `FX65`
(10_state.md sections 2 and 3). -/
def Obligations.OnlyNamedRegistersChange : Prop :=
  ∀ (r : Nibble) (i : Instr) (s t : State), exec i s = .next t → ¬ writesReg r i → t.getV r = s.getV r

/-- The sound timer is never read by the program (10_state.md section 5): two states that differ in `ST`
alone take every instruction to states that differ in `ST` at most. -/
def Obligations.SoundTimerIsNeverRead : Prop :=
  ∀ (i : Instr) (s t : State) (b : Byte), exec i s = .next t →
    ∃ u, exec i (s.setSt b) = .next u ∧ u.setSt 0x00#8 = t.setSt 0x00#8

/-- The terminal state of 70_reset_and_hazards.md section 3 is a fixed point of `step`, and ticks and key
events do not leave it. The notion of a terminal state is the spec's decision D15 (log 21). -/
def Obligations.TerminalStateIsFixedPoint : Prop :=
  ∀ s : State, s.terminal →
    step s = .next s ∧ (tickTimers s).terminal ∧ ∀ k, (setKeys k s).terminal

/-! ### Invariant -/

/-- Every step keeps the invariant: memory canonical, stack within its capacity, `pc` at most 0x10FE,
stack entries return addresses, fault info of its kind. -/
def Obligations.StepKeepsInvariant : Prop :=
  ∀ s t : State, s.Inv → step s = .next t → t.Inv

/-- Every schedule of host events and steps keeps the invariant, in any interleaving. What the events do,
and when, rests on the spec's decisions D11, D16, D18 and D22 (logs 8, 16, 17, 18). -/
def Obligations.ScheduleKeepsInvariant : Prop :=
  ∀ (es : List Event) (s t : State), s.Inv → runSchedule es s = .next t → t.Inv

/-- The reset state meets the invariant, and so does the state after a reset of any state, a reset in
mid-run being the spec's decision D18 (log 18). -/
def Obligations.ResetMeetsInvariant : Prop :=
  State.reset.Inv ∧ ∀ s, (hostReset s).Inv

/-! ### Host events -/

/-- The reset values of 10_state.md R45: the reset state has them, and so has the state after the `reset`
event from ANY state, a halted one too (70_reset_and_hazards.md R210). That `reset` may come in mid-run and
also clears the program region and the keys is the spec's decision D18 (log 18); the font table is named
and no byte of it is used (log 3). -/
def Obligations.ResetValues : Prop :=
  State.reset.hasResetValues ∧ ∀ s, ∃ t, transition .reset s = .next t ∧ t.hasResetValues

/-- `tick_timers()` (60_exceptions.md R196): each timer goes down by 1, floor at 0, independently;
nothing else changes. That it acts in a halted core too is the spec's decision D11 (log 8). -/
def Obligations.TickDecrementsTimers : Prop :=
  ∀ s : State, ∃ t, transition .tick s = .next t ∧ t.dt.toNat = s.dt.toNat - 1 ∧
    t.st.toNat = s.st.toNat - 1 ∧ keepsAllBut [.dt, .st] s t

/-- `set_keys(k)` (60_exceptions.md R199): `KEY` is the vector written; nothing else changes. That it acts
in a halted core too is the spec's decision D11 (log 8). -/
def Obligations.SetKeysWritesKeyVector : Prop :=
  ∀ (k : KeyVector) (s : State), ∃ t, transition (.setKeys k) s = .next t ∧
    (∀ j (h : j < 16), t.key.down j = k[j]) ∧ keepsAllBut [.key] s t

/-- After `n` ticks `DT` is its value less `n`, floor at 0, and `ST` likewise (60_exceptions.md section 5,
derived by the spec at R197); in a halted core too, by decision D11 (log 8). -/
def Obligations.TicksCountDown : Prop :=
  ∀ (n : Nat) (s : State), ∃ t, runSchedule (List.replicate n .tick) s = .next t ∧
    t.dt.toNat = s.dt.toNat - n ∧ t.st.toNat = s.st.toNat - n ∧ keepsAllBut [.dt, .st] s t

/-- A timer never increases except by its own instruction (60_exceptions.md section 5, derived by the spec
at R197). -/
def Obligations.TimersRiseOnlyWhenSet : Prop :=
  ∀ (e : Event) (s t : State), transition e s = .next t →
    (s.dt.toNat < t.dt.toNat → e = .step ∧ ∃ x, decodeWord s.fetchWord = .ldDtVx x) ∧
    (s.st.toNat < t.st.toNat → e = .step ∧ ∃ x, decodeWord s.fetchWord = .ldStVx x)

/-- `load(rom)` directly after reset puts the bytes at 0x200 and changes nothing else; a longer sequence,
or a load in a state that is not the reset state, is refused by name. When `load` is defined is the spec's
decision D22 (log 17), and that it may follow a reset in mid-run is D18 (log 18). -/
def Obligations.LoadPlacesProgram : Prop :=
  ∀ (rom : List Byte) (s : State),
    (rom.length ≤ 3584 → ∃ t, transition (.load rom) (hostReset s) = .next t ∧
      (∀ j (h : j < rom.length), t.mem.get (0x200 + j) = rom[j]) ∧
      (∀ a, a < 0x200 ∨ 0x200 + rom.length ≤ a → t.mem.get a = State.reset.mem.get a) ∧
      keepsAllBut [.mem] (hostReset s) t) ∧
    (3584 < rom.length → transition (.load rom) (hostReset s) = .refused .romTooLong) ∧
    (s ≠ hostReset s → transition (.load rom) s = .refused .loadNotAfterReset)
end

