-- ==== Sys2Proof/Laws/Decode.lean ====
section
/-! SUPPORT. The fields of an opcode built in each format (30_encoding.md R72, R73), the opcode rebuilt
from its fields, and the two bytes of an opcode. -/

namespace Sys2Proof

section bits
variable (f x y n : Nibble) (nn : Byte) (nnn : Addr12) (i : Nat)

theorem formatNNN_getLsbD :
    (formatNNN f nnn).getLsbD i = if i < 12 then nnn.getLsbD i else f.getLsbD (i - 12) :=
  BitVec.getLsbD_append

theorem formatXNN_getLsbD :
    (formatXNN f x nn).getLsbD i = if i < 8 then nn.getLsbD i else
      if i - 8 < 4 then x.getLsbD (i - 8) else f.getLsbD (i - 8 - 4) :=
  (BitVec.getLsbD_append (x := f ++ x) (y := nn)).trans (by rw [BitVec.getLsbD_append])

theorem formatXYN_getLsbD :
    (formatXYN f x y n).getLsbD i = if i < 4 then n.getLsbD i else
      if i - 4 < 4 then y.getLsbD (i - 4) else
        if i - 4 - 4 < 4 then x.getLsbD (i - 4 - 4) else f.getLsbD (i - 4 - 4 - 4) :=
  (BitVec.getLsbD_append (x := (f ++ x) ++ y) (y := n)).trans
    (by rw [BitVec.getLsbD_append, BitVec.getLsbD_append])

theorem wordOfBytes_getLsbD (hi lo : Byte) :
    (wordOfBytes hi lo).getLsbD i = if i < 8 then lo.getLsbD i else hi.getLsbD (i - 8) :=
  BitVec.getLsbD_append

end bits

section fields
variable (f x y n : Nibble) (nn : Byte) (nnn : Addr12)

@[simp] theorem opFamily_formatNNN : opFamily (formatNNN f nnn) = f := by
  apply BitVec.eq_of_getLsbD_eq
  intro i hi
  simp [opFamily, formatNNN_getLsbD, hi]

@[simp] theorem opNNN_formatNNN : opNNN (formatNNN f nnn) = nnn := by
  apply BitVec.eq_of_getLsbD_eq
  intro i hi
  simp [opNNN, formatNNN_getLsbD, hi]

@[simp] theorem opFamily_formatXNN : opFamily (formatXNN f x nn) = f := by
  apply BitVec.eq_of_getLsbD_eq
  intro i hi
  simp [opFamily, formatXNN_getLsbD, hi, show 12 + i - 8 - 4 = i by omega,
    show ¬ 12 + i < 8 by omega, show ¬ 12 + i - 8 < 4 by omega]

@[simp] theorem opX_formatXNN : opX (formatXNN f x nn) = x := by
  apply BitVec.eq_of_getLsbD_eq
  intro i hi
  simp [opX, formatXNN_getLsbD, hi]

@[simp] theorem opNN_formatXNN : opNN (formatXNN f x nn) = nn := by
  apply BitVec.eq_of_getLsbD_eq
  intro i hi
  simp [opNN, formatXNN_getLsbD, hi]

@[simp] theorem opFamily_formatXYN : opFamily (formatXYN f x y n) = f := by
  apply BitVec.eq_of_getLsbD_eq
  intro i hi
  simp [opFamily, formatXYN_getLsbD, hi,
    show 12 + i - 4 - 4 - 4 = i by omega, show ¬ 12 + i < 4 by omega, show ¬ 12 + i - 4 < 4 by omega,
    show ¬ 12 + i - 4 - 4 < 4 by omega]

@[simp] theorem opX_formatXYN : opX (formatXYN f x y n) = x := by
  apply BitVec.eq_of_getLsbD_eq
  intro i hi
  simp [opX, formatXYN_getLsbD, hi, show 8 + i - 4 - 4 = i by omega,
    show ¬ 8 + i < 4 by omega, show ¬ 8 + i - 4 < 4 by omega]

@[simp] theorem opY_formatXYN : opY (formatXYN f x y n) = y := by
  apply BitVec.eq_of_getLsbD_eq
  intro i hi
  simp [opY, formatXYN_getLsbD, hi]

@[simp] theorem opN_formatXYN : opN (formatXYN f x y n) = n := by
  apply BitVec.eq_of_getLsbD_eq
  intro i hi
  simp [opN, formatXYN_getLsbD, hi]

end fields

section rebuild
variable (op : Word)

theorem formatNNN_fields : formatNNN (opFamily op) (opNNN op) = op := by
  apply BitVec.eq_of_getLsbD_eq
  intro i hi
  simp only [formatNNN_getLsbD, opFamily, opNNN, BitVec.getLsbD_extractLsb']
  split
  · simp [*]
  · simp [show 12 + (i - 12) = i by omega, show i - 12 < 4 by omega]

theorem formatXNN_fields : formatXNN (opFamily op) (opX op) (opNN op) = op := by
  apply BitVec.eq_of_getLsbD_eq
  intro i hi
  simp only [formatXNN_getLsbD, opFamily, opX, opNN, BitVec.getLsbD_extractLsb']
  split
  · simp [*]
  · split
    · simp [show 8 + (i - 8) = i by omega, show i - 8 < 4 by omega]
    · simp [show 12 + (i - 8 - 4) = i by omega, show i - 8 - 4 < 4 by omega]

theorem formatXYN_fields : formatXYN (opFamily op) (opX op) (opY op) (opN op) = op := by
  apply BitVec.eq_of_getLsbD_eq
  intro i hi
  simp only [formatXYN_getLsbD, opFamily, opX, opY, opN, BitVec.getLsbD_extractLsb']
  split
  · simp [*]
  · split
    · simp [show 4 + (i - 4) = i by omega, show i - 4 < 4 by omega]
    · split
      · simp [show 8 + (i - 4 - 4) = i by omega, show i - 4 - 4 < 4 by omega]
      · simp [show 12 + (i - 4 - 4 - 4) = i by omega, show i - 4 - 4 - 4 < 4 by omega]

/-- The two bytes of an opcode make it again (20_memory.md R50). -/
@[simp] theorem wordOfBytes_highByte_lowByte : wordOfBytes (highByte op) (lowByte op) = op := by
  apply BitVec.eq_of_getLsbD_eq
  intro i hi
  simp only [wordOfBytes_getLsbD, highByte, lowByte, BitVec.getLsbD_extractLsb']
  split
  · simp [*]
  · simp [show 8 + (i - 8) = i by omega, show i - 8 < 8 by omega]

end rebuild

/-- The decoder on the bytes of an opcode, with any bytes after them. -/
@[simp] theorem decodeBytes_of_word (op : Word) (rest : List Byte) :
    decodeBytes (highByte op :: lowByte op :: rest) = .ok (decodeWord op, rest) := by
  simp [decodeBytes]

/-- The opcode-table view of a whole opcode is the opcode. -/
theorem decodeTableWord_of_word (op : Word) : decodeTableWord 16 op.toNat = some (decodeWord op) := by
  have h : tableWord 16 op.toNat = op := by
    unfold tableWord
    rw [Nat.mod_eq_of_lt op.isLt, BitVec.ofNat_toNat, BitVec.setWidth_eq]
  simp [decodeTableWord, h]

end Sys2Proof
end

