-- ==== Sys2Proof/Laws/Display.lean ====
section
/-! SUPPORT. The framebuffer: a pixel read after a pixel write, and the loops of `DXYN` as the set of
pixels they toggle. -/

namespace Sys2Proof.Machine

theorem Framebuffer.pixel_lt {fb : Framebuffer} {y x : Nat} (h : fb.pixel y x = true) : y < 32 ∧ x < 64 := by
  by_contra hc
  simp [Framebuffer.pixel, hc] at h

theorem Framebuffer.pixel_setPixel (fb : Framebuffer) (y x : Nat) (b : Bool) (y' x' : Nat) :
    (fb.setPixel y x b).pixel y' x' =
      if y' = y ∧ x' = x ∧ y < 32 ∧ x < 64 then b else fb.pixel y' x' := by
  by_cases h : y < 32 ∧ x < 64
  · by_cases h' : y' < 32 ∧ x' < 64
    · simp only [Framebuffer.setPixel, h, h', Framebuffer.pixel, and_self, dif_pos, Vector.getElem_set]
      by_cases hy : y = y'
      · subst hy
        by_cases hx : x = x'
        · subst hx; simp
        · simp [hx, Ne.symm hx]
      · simp [hy, Ne.symm hy]
    · have hn : ¬ (y' = y ∧ x' = x ∧ y < 32 ∧ x < 64) := by omega
      simp [Framebuffer.pixel, h', hn]
  · have hn : ¬ (y' = y ∧ x' = x ∧ y < 32 ∧ x < 64) := by omega
    simp [Framebuffer.setPixel, h]

@[simp] theorem Framebuffer.pixel_clear (y x : Nat) : Framebuffer.clear.pixel y x = false := by
  unfold Framebuffer.pixel Framebuffer.clear
  split <;> simp

/-- Framebuffers that read the same are the same data. -/
theorem Framebuffer.ext_pixel {fb fb' : Framebuffer} (h : ∀ y x, fb.pixel y x = fb'.pixel y x) : fb = fb' := by
  apply Vector.ext
  intro y hy
  apply Vector.ext
  intro x hx
  have := h y x
  simpa [Framebuffer.pixel, hy, hx] using this

/-- Does offset `k` of row byte `b` at origin column `x0` set column `x`? -/
def columnCovers (x0 : Nat) (b : Byte) (n x : Nat) : Bool :=
  decide (x0 ≤ x ∧ x < x0 + n ∧ x < 64) && spriteBit b (x - x0)

theorem columnCovers_succ (x0 : Nat) (b : Byte) (n x : Nat) :
    columnCovers x0 b (n + 1) x =
      (columnCovers x0 b n x || (decide (x = x0 + n ∧ x < 64) && spriteBit b n)) := by
  unfold columnCovers
  rcases Nat.lt_trichotomy x (x0 + n) with h | rfl | h
  · have h1 : x ≠ x0 + n := h.ne
    have h2 : x < x0 + (n + 1) := by omega
    simp [h1, h2, h]
  · simp [show x0 + n < x0 + (n + 1) by omega]
  · have h1 : x ≠ x0 + n := h.ne'
    have h2 : ¬ x < x0 + (n + 1) := by omega
    have h3 : ¬ x < x0 + n := by omega
    simp [h1, h2, h3]

/-- One sprite row: each covered pixel of the row is toggled, and a covered on pixel is a collision. -/
theorem Canvas.drawColumns_spec {y : Nat} (hy : y < 32) (x0 : Nat) (b : Byte) (n : Nat) (c : Canvas) :
    (∀ y' x, (Canvas.drawColumns y x0 b n c).fb.pixel y' x =
      (c.fb.pixel y' x ^^ (decide (y' = y) && columnCovers x0 b n x))) ∧
    ((Canvas.drawColumns y x0 b n c).collided = true ↔
      c.collided = true ∨ ∃ x, columnCovers x0 b n x = true ∧ c.fb.pixel y x = true) := by
  induction n with
  | zero =>
    have h0 : ∀ x, columnCovers x0 b 0 x = false := by
      intro x
      unfold columnCovers
      rw [decide_eq_false (by omega), Bool.false_and]
    simp [Canvas.drawColumns, h0]
  | succ n ih =>
    obtain ⟨ihp, ihc⟩ := ih
    simp only [Canvas.drawColumns, Config.fbWidth]
    by_cases hd : x0 + n < 64 ∧ spriteBit b n = true
    · rw [if_pos hd]
      have hnew : columnCovers x0 b n (x0 + n) = false := by
        unfold columnCovers
        rw [decide_eq_false (by omega), Bool.false_and]
      refine ⟨fun y' x => ?_, ?_⟩
      · rw [Canvas.toggle, Framebuffer.pixel_setPixel, columnCovers_succ, ihp, ihp]
        by_cases h : y' = y ∧ x = x0 + n
        · obtain ⟨rfl, rfl⟩ := h
          simp [hy, hd, hnew]
        · rw [if_neg (by tauto)]
          by_cases hx : x = x0 + n
          · have hy' : y' ≠ y := fun e => h ⟨e, hx⟩
            simp [hy']
          · simp [hx]
      · simp only [Canvas.toggle, Bool.or_eq_true, ihc, ihp, decide_true, hnew, Bool.and_false,
          Bool.xor_false]
        constructor
        · rintro ((h | ⟨x, h, h'⟩) | h)
          · exact .inl h
          · exact .inr ⟨x, by rw [columnCovers_succ, h, Bool.true_or], h'⟩
          · exact .inr ⟨x0 + n, by simp [columnCovers_succ, hd], h⟩
        · rintro (h | ⟨x, h, h'⟩)
          · exact .inl (.inl h)
          · rw [columnCovers_succ, Bool.or_eq_true] at h
            rcases h with h | h
            · exact .inl (.inr ⟨x, h, h'⟩)
            · simp only [Bool.and_eq_true, decide_eq_true_eq] at h
              exact .inr (h.1.1 ▸ h')
    · rw [if_neg hd]
      have hsame : ∀ x, columnCovers x0 b (n + 1) x = columnCovers x0 b n x := by
        intro x
        rw [columnCovers_succ]
        by_cases hx : x = x0 + n
        · subst hx
          have : ¬ (x0 + n < 64 ∧ spriteBit b n = true) := hd
          by_cases hb : spriteBit b n = true
          · simp [show ¬ x0 + n < 64 from fun h => this ⟨h, hb⟩]
          · simp [hb]
        · simp [hx]
      simp only [hsame]
      exact ⟨ihp, ihc⟩

theorem spriteCovers_row (m : Memory) (base y0 x0 n x : Nat) (hy : y0 + n < 32) :
    spriteCovers m base y0 x0 (n + 1) (y0 + n) x = columnCovers x0 (m.get (base + n)) 8 x := by
  unfold spriteCovers columnCovers spriteBit
  simp [hy]

theorem spriteCovers_succ_ne (m : Memory) (base y0 x0 n y x : Nat) (h : y ≠ y0 + n) :
    spriteCovers m base y0 x0 (n + 1) y x = spriteCovers m base y0 x0 n y x := by
  unfold spriteCovers
  congr 2
  simp only [eq_iff_iff]
  omega

theorem spriteCovers_last (m : Memory) (base y0 x0 n x : Nat) :
    spriteCovers m base y0 x0 n (y0 + n) x = false := by
  unfold spriteCovers
  rw [decide_eq_false (by omega), Bool.false_and]

theorem spriteCovers_other (m : Memory) (base y0 x0 n x y : Nat)
    (h : spriteCovers m base y0 x0 n y x = true) : y ≠ y0 + n := by
  rintro rfl
  rw [spriteCovers_last] at h
  cases h

/-- The whole sprite: every covered pixel is toggled, and the collision accumulator records whether a
covered pixel was on before (45_display.md R151). -/
theorem Canvas.drawRows_spec (m : Memory) (base : Nat) {y0 : Nat} (x0 n : Nat) (hn : y0 + n ≤ 32)
    (c : Canvas) :
    (∀ y x, (Canvas.drawRows m base y0 x0 n c).fb.pixel y x =
      (c.fb.pixel y x ^^ spriteCovers m base y0 x0 n y x)) ∧
    ((Canvas.drawRows m base y0 x0 n c).collided = true ↔
      c.collided = true ∨ ∃ y x, spriteCovers m base y0 x0 n y x = true ∧ c.fb.pixel y x = true) := by
  induction n with
  | zero =>
    have h0 : ∀ y x, spriteCovers m base y0 x0 0 y x = false := by
      intro y x
      unfold spriteCovers
      rw [decide_eq_false (by omega), Bool.false_and]
    simp [Canvas.drawRows, h0]
  | succ n ih =>
    obtain ⟨ihp, ihc⟩ := ih (by omega)
    have hy : y0 + n < 32 := by omega
    obtain ⟨hp, hc⟩ := Canvas.drawColumns_spec hy x0 (m.get (base + n)) 8 (Canvas.drawRows m base y0 x0 n c)
    simp only [Canvas.drawRows]
    refine ⟨fun y x => ?_, ?_⟩
    · rw [hp, ihp]
      by_cases h : y = y0 + n
      · subst h
        rw [spriteCovers_last, spriteCovers_row m base y0 x0 n x hy]
        simp
      · rw [spriteCovers_succ_ne m base y0 x0 n y x h]
        simp [h]
    · rw [hc, ihc]
      constructor
      · rintro ((h | ⟨y, x, h, h'⟩) | ⟨x, h, h'⟩)
        · exact .inl h
        · exact .inr ⟨y, x, by rwa [spriteCovers_succ_ne _ _ _ _ _ _ _ (spriteCovers_other _ _ _ _ _ _ _ h)], h'⟩
        · rw [ihp, spriteCovers_last, Bool.xor_false] at h'
          exact .inr ⟨y0 + n, x, by rwa [spriteCovers_row m base y0 x0 n x hy], h'⟩
      · rintro (h | ⟨y, x, h, h'⟩)
        · exact .inl (.inl h)
        · by_cases hyn : y = y0 + n
          · subst hyn
            rw [spriteCovers_row m base y0 x0 n x hy] at h
            exact .inr ⟨x, h, by rw [ihp, spriteCovers_last, Bool.xor_false]; exact h'⟩
          · rw [spriteCovers_succ_ne _ _ _ _ _ _ _ hyn] at h
            exact .inl (.inr ⟨y, x, h, h'⟩)

/-- Visible rows end at the bottom edge. -/
theorem visibleRows_le (n : Nibble) {y0 : Nat} (h : y0 < 32) : y0 + visibleRows n y0 ≤ 32 := by
  unfold visibleRows
  simp only [Config.fbHeight]
  omega

theorem originY_lt (b : Byte) : originY b < 32 := Nat.mod_lt _ (by decide)

end Sys2Proof.Machine
end

