-- ==== Sys2Proof/Laws/Memory.lean ====
section
/-! SUPPORT. Memory: a read after a write, the canonical form kept by every operation, and equal reads
make equal memories. -/

namespace Sys2Proof.Machine

theorem Memory.get_nil (a : Nat) : Memory.get [] a = resetByte a := rfl

theorem Memory.get_cons (b : Nat) (w : Byte) (m : Memory) (a : Nat) :
    Memory.get ((b, w) :: m) a = if a = b then w else Memory.get m a := rfl

/-- An address listed nowhere reads as its reset contents. -/
theorem Memory.get_unlisted {m : Memory} {a : Nat} (h : ∀ c ∈ m, a ≠ c.1) : m.get a = resetByte a := by
  induction m with
  | nil => rfl
  | cons c m ih =>
    obtain ⟨b, w⟩ := c
    rw [Memory.get_cons, if_neg (h (b, w) (by simp)), ih fun c hc => h c (by simp [hc])]

theorem Memory.wf_cons {b : Nat} {w : Byte} {m : Memory} :
    Memory.wf ((b, w) :: m) = true ↔
      b < Config.memSize ∧ w ≠ resetByte b ∧ (∀ c ∈ m, b < c.1) ∧ m.wf = true := by
  simp [Memory.wf, and_assoc]

/-- Where `a` is listed at the head of `m` or nowhere, `cons` reads back. -/
theorem Memory.get_cons_op {m : Memory} {a : Nat} {w : Byte} (h : ∀ c ∈ m, a < c.1) (x : Nat) :
    (Memory.cons a w m).get x = if x = a then w else m.get x := by
  unfold Memory.cons
  split
  case isTrue hw =>
    split
    case isTrue hx => rw [hx, Memory.get_unlisted fun c hc => (h c hc).ne, hw]
    case isFalse => rfl
  case isFalse => rfl

/-- A read after a write, at any address. -/
theorem Memory.get_set {m : Memory} (hm : m.wf = true) (a : Nat) (w : Byte) (x : Nat) :
    (m.set a w).get x = if x = a then w else m.get x := by
  induction m with
  | nil => exact Memory.get_cons_op (by simp) x
  | cons c m ih =>
    obtain ⟨b, u⟩ := c
    obtain ⟨-, -, hlt, hwf⟩ := Memory.wf_cons.1 hm
    simp only [Memory.set]
    split
    case isTrue hab =>
      refine Memory.get_cons_op (fun c hc => ?_) x
      rcases List.mem_cons.1 hc with rfl | hc
      · exact hab
      · exact hab.trans (hlt c hc)
    case isFalse hab =>
      split
      case isTrue he =>
        subst he
        rw [Memory.get_cons_op hlt x, Memory.get_cons]
        split <;> rfl
      case isFalse he =>
        rw [Memory.get_cons, Memory.get_cons, ih hwf]
        split
        case isTrue hx => rw [if_neg (by omega)]
        case isFalse => rfl

theorem Memory.mem_cons_op {m : Memory} {a : Nat} {w : Byte} {c : Host.Cell} (h : c ∈ Memory.cons a w m) :
    c.1 = a ∨ c ∈ m := by
  unfold Memory.cons at h
  split at h
  · exact .inr h
  · rcases List.mem_cons.1 h with rfl | h
    · exact .inl rfl
    · exact .inr h

/-- A cell of the memory after a write is the written address or was there before. -/
theorem Memory.mem_set {m : Memory} {a : Nat} {w : Byte} {c : Host.Cell} (h : c ∈ m.set a w) :
    c.1 = a ∨ c ∈ m := by
  induction m with
  | nil => exact Memory.mem_cons_op h
  | cons d m ih =>
    obtain ⟨b, u⟩ := d
    simp only [Memory.set] at h
    split at h
    · exact Memory.mem_cons_op h
    · split at h
      · exact (Memory.mem_cons_op h).imp id (List.mem_cons_of_mem _)
      · rcases List.mem_cons.1 h with rfl | h
        · exact .inr (by simp)
        · exact (ih h).imp id (List.mem_cons_of_mem _)

theorem Memory.wf_cons_op {m : Memory} {a : Nat} {w : Byte} (ha : a < Config.memSize)
    (hlt : ∀ c ∈ m, a < c.1) (hm : m.wf = true) : (Memory.cons a w m).wf = true := by
  unfold Memory.cons
  split
  · exact hm
  · exact Memory.wf_cons.2 ⟨ha, ‹_›, hlt, hm⟩

/-- A write to an address that exists keeps the canonical form. -/
theorem Memory.wf_set {m : Memory} (hm : m.wf = true) {a : Nat} (ha : a < Config.memSize) (w : Byte) :
    (m.set a w).wf = true := by
  induction m with
  | nil => exact Memory.wf_cons_op ha (by simp) rfl
  | cons c m ih =>
    obtain ⟨b, u⟩ := c
    obtain ⟨hb, hu, hlt, hwf⟩ := Memory.wf_cons.1 hm
    simp only [Memory.set]
    split
    case isTrue hab =>
      refine Memory.wf_cons_op ha (fun c hc => ?_) hm
      rcases List.mem_cons.1 hc with rfl | hc
      · exact hab
      · exact hab.trans (hlt c hc)
    case isFalse hab =>
      split
      case isTrue he => subst he; exact Memory.wf_cons_op ha hlt hwf
      case isFalse he =>
        refine Memory.wf_cons.2 ⟨hb, hu, fun c hc => ?_, ih hwf⟩
        rcases Memory.mem_set hc with h | h
        · omega
        · exact hlt c h

/-- Two canonical memories that read the same are the same data. -/
theorem Memory.ext_of_wf {m n : Memory} (hm : m.wf = true) (hn : n.wf = true)
    (h : ∀ a, m.get a = n.get a) : m = n := by
  induction m generalizing n with
  | nil =>
    cases n with
    | nil => rfl
    | cons c n =>
      obtain ⟨b, w⟩ := c
      have := h b
      rw [Memory.get_cons, if_pos rfl] at this
      exact absurd this.symm (Memory.wf_cons.1 hn).2.1
  | cons c m ih =>
    obtain ⟨b, w⟩ := c
    obtain ⟨-, hw, hlt, hwf⟩ := Memory.wf_cons.1 hm
    cases n with
    | nil =>
      have := h b
      rw [Memory.get_cons, if_pos rfl] at this
      exact absurd this hw
    | cons d n =>
      obtain ⟨b', w'⟩ := d
      obtain ⟨-, hw', hlt', hwf'⟩ := Memory.wf_cons.1 hn
      have hb : b = b' := by
        rcases Nat.lt_trichotomy b b' with hlt2 | rfl | hlt2
        · have := h b
          rw [Memory.get_cons, if_pos rfl, Memory.get_cons, if_neg (by omega),
            Memory.get_unlisted fun c hc => (hlt2.trans (hlt' c hc)).ne] at this
          exact absurd this hw
        · rfl
        · have := h b'
          rw [Memory.get_cons, if_neg (by omega), Memory.get_cons, if_pos rfl,
            Memory.get_unlisted fun c hc => (hlt2.trans (hlt c hc)).ne] at this
          exact absurd this.symm hw'
      subst hb
      have hv := h b
      rw [Memory.get_cons, if_pos rfl, Memory.get_cons, if_pos rfl] at hv
      subst hv
      congr 1
      refine ih hwf hwf' fun a => ?_
      by_cases ha : a = b
      · subst ha
        rw [Memory.get_unlisted fun c hc => (hlt c hc).ne, Memory.get_unlisted fun c hc => (hlt' c hc).ne]
      · have := h a
        rwa [Memory.get_cons, if_neg ha, Memory.get_cons, if_neg ha] at this

/-- Storing a byte sequence that fits keeps the canonical form. -/
theorem Memory.wf_setBytes {m : Memory} (hm : m.wf = true) {a : Nat} {ws : List Byte}
    (h : a + ws.length ≤ Config.memSize) : (m.setBytes a ws).wf = true := by
  induction ws generalizing m a with
  | nil => exact hm
  | cons w ws ih =>
    simp only [List.length_cons] at h
    exact ih (Memory.wf_set hm (by omega) w) (by omega)

/-- What a stored byte sequence reads back as. -/
theorem Memory.get_setBytes {m : Memory} (hm : m.wf = true) {a : Nat} {ws : List Byte}
    (h : a + ws.length ≤ Config.memSize) (x : Nat) :
    (m.setBytes a ws).get x = if a ≤ x then (ws[x - a]?).getD (m.get x) else m.get x := by
  induction ws generalizing m a with
  | nil => simp [Memory.setBytes]
  | cons w ws ih =>
    simp only [List.length_cons] at h
    rw [Memory.setBytes, ih (Memory.wf_set hm (by omega) w) (by omega), Memory.get_set hm]
    rcases Nat.lt_trichotomy x a with hx | rfl | hx
    · simp [show ¬ a + 1 ≤ x by omega, show x ≠ a by omega, show ¬ a ≤ x by omega]
    · simp
    · obtain ⟨k, rfl⟩ : ∃ k, x = a + 1 + k := ⟨x - (a + 1), by omega⟩
      simp [show a ≤ a + 1 + k by omega, show a + 1 + k ≠ a by omega, show a + 1 + k - a = k + 1 by omega]

/-- Memory at reset, read whole (10_state.md R40). -/
theorem resetByte_outside_font {a : Nat} (h : a < 0x050 ∨ 0x09F < a) : resetByte a = 0x00#8 := by
  unfold resetByte
  rw [if_neg]
  simp only [Config.fontBase, Config.fontSize]
  omega

end Sys2Proof.Machine
end

