-- ==== Sys2Proof/Laws/State.lean ====
section
/-! SUPPORT. What every update of the state does to every field, one lemma per field and update, so that
no proof unfolds a record update; and the register file as its readers see it. -/

namespace Sys2Proof.Machine

variable (s : State)

/-! ### `setV` -/

@[simp] theorem State.setV_mem (x : Nibble) (b : Byte) : (s.setV x b).mem = s.mem := rfl
@[simp] theorem State.setV_v (x : Nibble) (b : Byte) : (s.setV x b).v = s.v.set x.toNat b x.isLt := rfl
@[simp] theorem State.setV_i (x : Nibble) (b : Byte) : (s.setV x b).i = s.i := rfl
@[simp] theorem State.setV_pc (x : Nibble) (b : Byte) : (s.setV x b).pc = s.pc := rfl
@[simp] theorem State.setV_stack (x : Nibble) (b : Byte) : (s.setV x b).stack = s.stack := rfl
@[simp] theorem State.setV_dt (x : Nibble) (b : Byte) : (s.setV x b).dt = s.dt := rfl
@[simp] theorem State.setV_st (x : Nibble) (b : Byte) : (s.setV x b).st = s.st := rfl
@[simp] theorem State.setV_fb (x : Nibble) (b : Byte) : (s.setV x b).fb = s.fb := rfl
@[simp] theorem State.setV_key (x : Nibble) (b : Byte) : (s.setV x b).key = s.key := rfl
@[simp] theorem State.setV_fault (x : Nibble) (b : Byte) : (s.setV x b).fault = s.fault := rfl
@[simp] theorem State.setV_draws (x : Nibble) (b : Byte) : (s.setV x b).draws = s.draws := rfl

/-! ### `setI` -/

@[simp] theorem State.setI_mem (w : Word) : (s.setI w).mem = s.mem := rfl
@[simp] theorem State.setI_v (w : Word) : (s.setI w).v = s.v := rfl
@[simp] theorem State.setI_i (w : Word) : (s.setI w).i = w := rfl
@[simp] theorem State.setI_pc (w : Word) : (s.setI w).pc = s.pc := rfl
@[simp] theorem State.setI_stack (w : Word) : (s.setI w).stack = s.stack := rfl
@[simp] theorem State.setI_dt (w : Word) : (s.setI w).dt = s.dt := rfl
@[simp] theorem State.setI_st (w : Word) : (s.setI w).st = s.st := rfl
@[simp] theorem State.setI_fb (w : Word) : (s.setI w).fb = s.fb := rfl
@[simp] theorem State.setI_key (w : Word) : (s.setI w).key = s.key := rfl
@[simp] theorem State.setI_fault (w : Word) : (s.setI w).fault = s.fault := rfl
@[simp] theorem State.setI_draws (w : Word) : (s.setI w).draws = s.draws := rfl
@[simp] theorem State.setI_getV (w : Word) (r : Nibble) : (s.setI w).getV r = s.getV r := rfl

/-! ### `setPc` -/

@[simp] theorem State.setPc_mem (t : Word) : (s.setPc t).mem = s.mem := rfl
@[simp] theorem State.setPc_v (t : Word) : (s.setPc t).v = s.v := rfl
@[simp] theorem State.setPc_i (t : Word) : (s.setPc t).i = s.i := rfl
@[simp] theorem State.setPc_pc (t : Word) : (s.setPc t).pc = t := rfl
@[simp] theorem State.setPc_stack (t : Word) : (s.setPc t).stack = s.stack := rfl
@[simp] theorem State.setPc_dt (t : Word) : (s.setPc t).dt = s.dt := rfl
@[simp] theorem State.setPc_st (t : Word) : (s.setPc t).st = s.st := rfl
@[simp] theorem State.setPc_fb (t : Word) : (s.setPc t).fb = s.fb := rfl
@[simp] theorem State.setPc_key (t : Word) : (s.setPc t).key = s.key := rfl
@[simp] theorem State.setPc_fault (t : Word) : (s.setPc t).fault = s.fault := rfl
@[simp] theorem State.setPc_draws (t : Word) : (s.setPc t).draws = s.draws := rfl
@[simp] theorem State.setPc_getV (t : Word) (r : Nibble) : (s.setPc t).getV r = s.getV r := rfl

/-! ### `advance` -/

@[simp] theorem State.advance_mem : (s.advance).mem = s.mem := rfl
@[simp] theorem State.advance_v : (s.advance).v = s.v := rfl
@[simp] theorem State.advance_i : (s.advance).i = s.i := rfl
@[simp] theorem State.advance_pc : (s.advance).pc = s.pc + 2#16 := rfl
@[simp] theorem State.advance_stack : (s.advance).stack = s.stack := rfl
@[simp] theorem State.advance_dt : (s.advance).dt = s.dt := rfl
@[simp] theorem State.advance_st : (s.advance).st = s.st := rfl
@[simp] theorem State.advance_fb : (s.advance).fb = s.fb := rfl
@[simp] theorem State.advance_key : (s.advance).key = s.key := rfl
@[simp] theorem State.advance_fault : (s.advance).fault = s.fault := rfl
@[simp] theorem State.advance_draws : (s.advance).draws = s.draws := rfl
@[simp] theorem State.advance_getV (r : Nibble) : (s.advance).getV r = s.getV r := rfl

/-! ### `setDt` -/

@[simp] theorem State.setDt_mem (b : Byte) : (s.setDt b).mem = s.mem := rfl
@[simp] theorem State.setDt_v (b : Byte) : (s.setDt b).v = s.v := rfl
@[simp] theorem State.setDt_i (b : Byte) : (s.setDt b).i = s.i := rfl
@[simp] theorem State.setDt_pc (b : Byte) : (s.setDt b).pc = s.pc := rfl
@[simp] theorem State.setDt_stack (b : Byte) : (s.setDt b).stack = s.stack := rfl
@[simp] theorem State.setDt_dt (b : Byte) : (s.setDt b).dt = b := rfl
@[simp] theorem State.setDt_st (b : Byte) : (s.setDt b).st = s.st := rfl
@[simp] theorem State.setDt_fb (b : Byte) : (s.setDt b).fb = s.fb := rfl
@[simp] theorem State.setDt_key (b : Byte) : (s.setDt b).key = s.key := rfl
@[simp] theorem State.setDt_fault (b : Byte) : (s.setDt b).fault = s.fault := rfl
@[simp] theorem State.setDt_draws (b : Byte) : (s.setDt b).draws = s.draws := rfl
@[simp] theorem State.setDt_getV (b : Byte) (r : Nibble) : (s.setDt b).getV r = s.getV r := rfl

/-! ### `setSt` -/

@[simp] theorem State.setSt_mem (b : Byte) : (s.setSt b).mem = s.mem := rfl
@[simp] theorem State.setSt_v (b : Byte) : (s.setSt b).v = s.v := rfl
@[simp] theorem State.setSt_i (b : Byte) : (s.setSt b).i = s.i := rfl
@[simp] theorem State.setSt_pc (b : Byte) : (s.setSt b).pc = s.pc := rfl
@[simp] theorem State.setSt_stack (b : Byte) : (s.setSt b).stack = s.stack := rfl
@[simp] theorem State.setSt_dt (b : Byte) : (s.setSt b).dt = s.dt := rfl
@[simp] theorem State.setSt_st (b : Byte) : (s.setSt b).st = b := rfl
@[simp] theorem State.setSt_fb (b : Byte) : (s.setSt b).fb = s.fb := rfl
@[simp] theorem State.setSt_key (b : Byte) : (s.setSt b).key = s.key := rfl
@[simp] theorem State.setSt_fault (b : Byte) : (s.setSt b).fault = s.fault := rfl
@[simp] theorem State.setSt_draws (b : Byte) : (s.setSt b).draws = s.draws := rfl
@[simp] theorem State.setSt_getV (b : Byte) (r : Nibble) : (s.setSt b).getV r = s.getV r := rfl

/-! ### `store` -/

@[simp] theorem State.store_mem (a : Nat) (w : Byte) : (s.store a w).mem = s.mem.set a w := rfl
@[simp] theorem State.store_v (a : Nat) (w : Byte) : (s.store a w).v = s.v := rfl
@[simp] theorem State.store_i (a : Nat) (w : Byte) : (s.store a w).i = s.i := rfl
@[simp] theorem State.store_pc (a : Nat) (w : Byte) : (s.store a w).pc = s.pc := rfl
@[simp] theorem State.store_stack (a : Nat) (w : Byte) : (s.store a w).stack = s.stack := rfl
@[simp] theorem State.store_dt (a : Nat) (w : Byte) : (s.store a w).dt = s.dt := rfl
@[simp] theorem State.store_st (a : Nat) (w : Byte) : (s.store a w).st = s.st := rfl
@[simp] theorem State.store_fb (a : Nat) (w : Byte) : (s.store a w).fb = s.fb := rfl
@[simp] theorem State.store_key (a : Nat) (w : Byte) : (s.store a w).key = s.key := rfl
@[simp] theorem State.store_fault (a : Nat) (w : Byte) : (s.store a w).fault = s.fault := rfl
@[simp] theorem State.store_draws (a : Nat) (w : Byte) : (s.store a w).draws = s.draws := rfl
@[simp] theorem State.store_getV (a : Nat) (w : Byte) (r : Nibble) : (s.store a w).getV r = s.getV r := rfl

/-! ### `countDraw` -/

@[simp] theorem State.countDraw_mem : (s.countDraw).mem = s.mem := rfl
@[simp] theorem State.countDraw_v : (s.countDraw).v = s.v := rfl
@[simp] theorem State.countDraw_i : (s.countDraw).i = s.i := rfl
@[simp] theorem State.countDraw_pc : (s.countDraw).pc = s.pc := rfl
@[simp] theorem State.countDraw_stack : (s.countDraw).stack = s.stack := rfl
@[simp] theorem State.countDraw_dt : (s.countDraw).dt = s.dt := rfl
@[simp] theorem State.countDraw_st : (s.countDraw).st = s.st := rfl
@[simp] theorem State.countDraw_fb : (s.countDraw).fb = s.fb := rfl
@[simp] theorem State.countDraw_key : (s.countDraw).key = s.key := rfl
@[simp] theorem State.countDraw_fault : (s.countDraw).fault = s.fault := rfl
@[simp] theorem State.countDraw_draws : (s.countDraw).draws = s.draws + 1 := rfl
@[simp] theorem State.countDraw_getV (r : Nibble) : (s.countDraw).getV r = s.getV r := rfl

/-! ### `setStack` -/

@[simp] theorem State.setStack_mem (l : List Word) : (s.setStack l).mem = s.mem := rfl
@[simp] theorem State.setStack_v (l : List Word) : (s.setStack l).v = s.v := rfl
@[simp] theorem State.setStack_i (l : List Word) : (s.setStack l).i = s.i := rfl
@[simp] theorem State.setStack_pc (l : List Word) : (s.setStack l).pc = s.pc := rfl
@[simp] theorem State.setStack_stack (l : List Word) : (s.setStack l).stack = l := rfl
@[simp] theorem State.setStack_dt (l : List Word) : (s.setStack l).dt = s.dt := rfl
@[simp] theorem State.setStack_st (l : List Word) : (s.setStack l).st = s.st := rfl
@[simp] theorem State.setStack_fb (l : List Word) : (s.setStack l).fb = s.fb := rfl
@[simp] theorem State.setStack_key (l : List Word) : (s.setStack l).key = s.key := rfl
@[simp] theorem State.setStack_fault (l : List Word) : (s.setStack l).fault = s.fault := rfl
@[simp] theorem State.setStack_draws (l : List Word) : (s.setStack l).draws = s.draws := rfl
@[simp] theorem State.setStack_getV (l : List Word) (r : Nibble) : (s.setStack l).getV r = s.getV r := rfl

/-! ### `setFb` -/

@[simp] theorem State.setFb_mem (fb : Framebuffer) : (s.setFb fb).mem = s.mem := rfl
@[simp] theorem State.setFb_v (fb : Framebuffer) : (s.setFb fb).v = s.v := rfl
@[simp] theorem State.setFb_i (fb : Framebuffer) : (s.setFb fb).i = s.i := rfl
@[simp] theorem State.setFb_pc (fb : Framebuffer) : (s.setFb fb).pc = s.pc := rfl
@[simp] theorem State.setFb_stack (fb : Framebuffer) : (s.setFb fb).stack = s.stack := rfl
@[simp] theorem State.setFb_dt (fb : Framebuffer) : (s.setFb fb).dt = s.dt := rfl
@[simp] theorem State.setFb_st (fb : Framebuffer) : (s.setFb fb).st = s.st := rfl
@[simp] theorem State.setFb_fb (fb : Framebuffer) : (s.setFb fb).fb = fb := rfl
@[simp] theorem State.setFb_key (fb : Framebuffer) : (s.setFb fb).key = s.key := rfl
@[simp] theorem State.setFb_fault (fb : Framebuffer) : (s.setFb fb).fault = s.fault := rfl
@[simp] theorem State.setFb_draws (fb : Framebuffer) : (s.setFb fb).draws = s.draws := rfl
@[simp] theorem State.setFb_getV (fb : Framebuffer) (r : Nibble) : (s.setFb fb).getV r = s.getV r := rfl

/-! ### `setV` as `getV` sees it -/

@[simp] theorem State.setV_getV (x : Nibble) (b : Byte) (r : Nibble) :
    (s.setV x b).getV r = if r = x then b else s.getV r := by
  simp only [State.getV, State.setV, Vector.getElem_set, ← BitVec.toNat_inj]
  by_cases h : x.toNat = r.toNat
  · simp [h]
  · simp [h, Ne.symm h]

/-- The registers as data are what `getV` reads. -/
theorem State.v_ext {s t : State} (h : ∀ r, t.getV r = s.getV r) : t.v = s.v := by
  apply Vector.ext
  intro k hk
  have := h (BitVec.ofNat 4 k)
  simpa [State.getV, Nat.mod_eq_of_lt hk] using this

/-! ### `setVAndFlag` -/

@[simp] theorem State.setVAndFlag_mem (x : Nibble) (r c : Byte) : (s.setVAndFlag x r c).mem = s.mem := rfl
@[simp] theorem State.setVAndFlag_i (x : Nibble) (r c : Byte) : (s.setVAndFlag x r c).i = s.i := rfl
@[simp] theorem State.setVAndFlag_pc (x : Nibble) (r c : Byte) : (s.setVAndFlag x r c).pc = s.pc := rfl
@[simp] theorem State.setVAndFlag_stack (x : Nibble) (r c : Byte) : (s.setVAndFlag x r c).stack = s.stack := rfl
@[simp] theorem State.setVAndFlag_dt (x : Nibble) (r c : Byte) : (s.setVAndFlag x r c).dt = s.dt := rfl
@[simp] theorem State.setVAndFlag_st (x : Nibble) (r c : Byte) : (s.setVAndFlag x r c).st = s.st := rfl
@[simp] theorem State.setVAndFlag_fb (x : Nibble) (r c : Byte) : (s.setVAndFlag x r c).fb = s.fb := rfl
@[simp] theorem State.setVAndFlag_key (x : Nibble) (r c : Byte) : (s.setVAndFlag x r c).key = s.key := rfl
@[simp] theorem State.setVAndFlag_fault (x : Nibble) (r c : Byte) : (s.setVAndFlag x r c).fault = s.fault := rfl
@[simp] theorem State.setVAndFlag_draws (x : Nibble) (r c : Byte) : (s.setVAndFlag x r c).draws = s.draws := rfl
/-- The flag is written last, so it wins when `X` names `VF` (10_state.md R25). -/
@[simp] theorem State.setVAndFlag_getV (x : Nibble) (b c : Byte) (r : Nibble) :
    (s.setVAndFlag x b c).getV r = if r = regVF then c else if r = x then b else s.getV r := by
  simp [State.setVAndFlag]

/-! ### `skipIf` -/

@[simp] theorem State.skipIf_mem (c : Bool) : (s.skipIf c).mem = s.mem := by cases c <;> rfl
@[simp] theorem State.skipIf_v (c : Bool) : (s.skipIf c).v = s.v := by cases c <;> rfl
@[simp] theorem State.skipIf_i (c : Bool) : (s.skipIf c).i = s.i := by cases c <;> rfl
@[simp] theorem State.skipIf_pc (c : Bool) : (s.skipIf c).pc = if c then s.pc + 4#16 else s.pc + 2#16 := by
  cases c <;> rfl
@[simp] theorem State.skipIf_stack (c : Bool) : (s.skipIf c).stack = s.stack := by cases c <;> rfl
@[simp] theorem State.skipIf_dt (c : Bool) : (s.skipIf c).dt = s.dt := by cases c <;> rfl
@[simp] theorem State.skipIf_st (c : Bool) : (s.skipIf c).st = s.st := by cases c <;> rfl
@[simp] theorem State.skipIf_fb (c : Bool) : (s.skipIf c).fb = s.fb := by cases c <;> rfl
@[simp] theorem State.skipIf_key (c : Bool) : (s.skipIf c).key = s.key := by cases c <;> rfl
@[simp] theorem State.skipIf_fault (c : Bool) : (s.skipIf c).fault = s.fault := by cases c <;> rfl
@[simp] theorem State.skipIf_draws (c : Bool) : (s.skipIf c).draws = s.draws := by cases c <;> rfl
@[simp] theorem State.skipIf_getV (c : Bool) (r : Nibble) : (s.skipIf c).getV r = s.getV r := by cases c <;> rfl

/-! ### Host events -/

@[simp] theorem tickTimers_mem : (tickTimers s).mem = s.mem := rfl
@[simp] theorem tickTimers_v : (tickTimers s).v = s.v := rfl
@[simp] theorem tickTimers_i : (tickTimers s).i = s.i := rfl
@[simp] theorem tickTimers_pc : (tickTimers s).pc = s.pc := rfl
@[simp] theorem tickTimers_stack : (tickTimers s).stack = s.stack := rfl
@[simp] theorem tickTimers_dt : (tickTimers s).dt = tickDown s.dt := rfl
@[simp] theorem tickTimers_st : (tickTimers s).st = tickDown s.st := rfl
@[simp] theorem tickTimers_fb : (tickTimers s).fb = s.fb := rfl
@[simp] theorem tickTimers_key : (tickTimers s).key = s.key := rfl
@[simp] theorem tickTimers_fault : (tickTimers s).fault = s.fault := rfl
@[simp] theorem tickTimers_draws : (tickTimers s).draws = s.draws := rfl
@[simp] theorem tickTimers_getV (r : Nibble) : (tickTimers s).getV r = s.getV r := rfl
@[simp] theorem setKeys_mem (k : KeyVector) : (setKeys k s).mem = s.mem := rfl
@[simp] theorem setKeys_v (k : KeyVector) : (setKeys k s).v = s.v := rfl
@[simp] theorem setKeys_i (k : KeyVector) : (setKeys k s).i = s.i := rfl
@[simp] theorem setKeys_pc (k : KeyVector) : (setKeys k s).pc = s.pc := rfl
@[simp] theorem setKeys_stack (k : KeyVector) : (setKeys k s).stack = s.stack := rfl
@[simp] theorem setKeys_dt (k : KeyVector) : (setKeys k s).dt = s.dt := rfl
@[simp] theorem setKeys_st (k : KeyVector) : (setKeys k s).st = s.st := rfl
@[simp] theorem setKeys_fb (k : KeyVector) : (setKeys k s).fb = s.fb := rfl
@[simp] theorem setKeys_key (k : KeyVector) : (setKeys k s).key = k := rfl
@[simp] theorem setKeys_fault (k : KeyVector) : (setKeys k s).fault = s.fault := rfl
@[simp] theorem setKeys_draws (k : KeyVector) : (setKeys k s).draws = s.draws := rfl
@[simp] theorem setKeys_getV (k : KeyVector) (r : Nibble) : (setKeys k s).getV r = s.getV r := rfl

/-! ### Reset -/

@[simp] theorem hostReset_mem : (hostReset s).mem = [] := rfl
@[simp] theorem hostReset_i : (hostReset s).i = 0#16 := rfl
@[simp] theorem hostReset_pc : (hostReset s).pc = 0x200#16 := rfl
@[simp] theorem hostReset_stack : (hostReset s).stack = [] := rfl
@[simp] theorem hostReset_dt : (hostReset s).dt = 0#8 := rfl
@[simp] theorem hostReset_st : (hostReset s).st = 0#8 := rfl
@[simp] theorem hostReset_fault : (hostReset s).fault = .none := rfl
@[simp] theorem hostReset_draws : (hostReset s).draws = s.draws := rfl

/-! ### `keeps` -/

@[simp] theorem keeps_refl (c : Component) : keeps s s c := by cases c <;> simp [keeps]

theorem keeps_trans {s t u : State} {c : Component} (h : keeps s t c) (k : keeps t u c) : keeps s u c := by
  cases c <;> simp_all [keeps]

/-- `keepsAllBut` one component at a time. -/
theorem keepsAllBut_iff {cs : List Component} {s t : State} :
    keepsAllBut cs s t ↔
      (Component.mem ∉ cs → keeps s t .mem) ∧ (Component.v ∉ cs → keeps s t .v) ∧
      (Component.i ∉ cs → keeps s t .i) ∧ (Component.pc ∉ cs → keeps s t .pc) ∧
      (Component.stack ∉ cs → keeps s t .stack) ∧ (Component.dt ∉ cs → keeps s t .dt) ∧
      (Component.st ∉ cs → keeps s t .st) ∧ (Component.fb ∉ cs → keeps s t .fb) ∧
      (Component.key ∉ cs → keeps s t .key) ∧ (Component.fault ∉ cs → keeps s t .fault) ∧
      (Component.draws ∉ cs → keeps s t .draws) := by
  constructor
  · intro h
    exact ⟨h _, h _, h _, h _, h _, h _, h _, h _, h _, h _, h _⟩
  · rintro ⟨h1, h2, h3, h4, h5, h6, h7, h8, h9, h10, h11⟩ c hc
    cases c <;> first | exact h1 hc | exact h2 hc | exact h3 hc | exact h4 hc | exact h5 hc | exact h6 hc | exact h7 hc | exact h8 hc | exact h9 hc | exact h10 hc | exact h11 hc

end Sys2Proof.Machine
end

