-- ==== Sys2Proof/Laws/Ops.lean ====
section
/-! SUPPORT. One lemma for each shared operation that says all it can do. -/

namespace Sys2Proof.Machine

/-! ### Bounds check and faults -/

/-- Out of range: some address is above 0xFFF, and the reported one is `max(base, 0x1000)` (R65). -/
theorem firstOutOfRange_eq_some {base count : Nat} (h : 0 < count) (h' : 0x1000 ≤ base + count - 1) :
    firstOutOfRange base count = some (BitVec.ofNat 16 (max base 0x1000)) :=
  if_pos ⟨h, h'⟩

theorem firstOutOfRange_eq_none {base count : Nat} (h : count = 0 ∨ base + count - 1 < 0x1000) :
    firstOutOfRange base count = none := by
  refine if_neg ?_
  simp only [Config.memSize]
  omega

theorem withRange_fault {base count : Nat} {s : State} {k : State → Result} (h : 0 < count)
    (h' : 0x1000 ≤ base + count - 1) : withRange base count s k = raise (boundsFault base) s := by
  simp only [withRange, firstOutOfRange_eq_some h h', boundsFault]

theorem withRange_ok {base count : Nat} {s : State} {k : State → Result}
    (h : count = 0 ∨ base + count - 1 < 0x1000) : withRange base count s k = k s := by
  simp only [withRange, firstOutOfRange_eq_none h]

/-- All that `withRange` can do. -/
theorem withRange_cases (base count : Nat) (s : State) (k : State → Result) :
    (0 < count ∧ 0x1000 ≤ base + count - 1 ∧ withRange base count s k = raise (boundsFault base) s) ∨
      ((count = 0 ∨ base + count - 1 < 0x1000) ∧ withRange base count s k = k s) := by
  by_cases h : 0 < count ∧ 0x1000 ≤ base + count - 1
  · exact .inl ⟨h.1, h.2, withRange_fault h.1 h.2⟩
  · have h' : count = 0 ∨ base + count - 1 < 0x1000 := by omega
    exact .inr ⟨h', withRange_ok h'⟩

/-- The address a range fault records for a 16-bit base is not truncated. -/
theorem boundsFault_wf {base : Nat} (h : base < 0x10000) : (boundsFault base).wf := by
  simp only [boundsFault, FaultLatch.wf, BitVec.toNat_ofNat]
  rw [Nat.mod_eq_of_lt (by omega)]
  omega

/-- Taking a fault changes the latch and nothing else (R186). -/
theorem raise_keeps (f : FaultLatch) (s : State) :
    raise f s = .next { s with fault := f } ∧ keepsAllBut [.fault] s { s with fault := f } := by
  refine ⟨rfl, fun c hc => ?_⟩
  cases c <;> simp_all [keeps, State.getV]

/-! ### Stack -/

theorem withPush_ok {w : Word} {s : State} {k : State → Result} (h : s.sp < stackCapacity) :
    withPush w s k = k (s.setStack (w :: s.stack)) := if_pos h

theorem withPush_full {w : Word} {s : State} {k : State → Result} (h : stackCapacity ≤ s.sp) :
    withPush w s k = raise .stackOverflow s := if_neg (Nat.not_lt.2 h)

theorem withPop_ok {w : Word} {rest : List Word} {s : State} {k : Word → State → Result}
    (h : s.stack = w :: rest) : withPop s k = k w (s.setStack rest) := by
  simp only [withPop, h]

theorem withPop_empty {s : State} {k : Word → State → Result} (h : s.stack = []) :
    withPop s k = raise .stackUnderflow s := by
  simp only [withPop, h]

/-- Any conforming capacity is at least 12 (00_scope.md R7). -/
theorem twelve_le_stackCapacity : 12 ≤ stackCapacity := Nat.le_add_left _ _

/-! ### Keys -/

theorem withKey_ok {b : Byte} {s : State} {k : Bool → Result} (h : b.toNat < 16) :
    withKey b s k = k (s.key.down b.toNat) := if_pos h

theorem withKey_fault {b : Byte} {s : State} {k : Bool → Result} (h : 15 < b.toNat) :
    withKey b s k = raise (.keyIndex b) s := if_neg (by simp only [Config.numKeys]; omega)

theorem KeyVector.down_lt {key : KeyVector} {k : Nat} (h : key.down k = true) : k < 16 := by
  by_contra hk
  simp [KeyVector.down, hk] at h

/-- All that the search for the least key down can answer. -/
theorem KeyVector.firstDownFrom_spec (key : KeyVector) (n k : Nat) :
    match key.firstDownFrom n k with
    | some j => k ≤ j ∧ j < k + n ∧ key.down j = true ∧ ∀ i, k ≤ i → i < j → key.down i = false
    | none => ∀ i, k ≤ i → i < k + n → key.down i = false := by
  induction n generalizing k with
  | zero => simp only [KeyVector.firstDownFrom]; omega
  | succ n ih =>
    simp only [KeyVector.firstDownFrom]
    by_cases h : key.down k = true
    · simp only [h, if_true]
      exact ⟨le_refl k, by omega, trivial, fun i hi hj => by omega⟩
    · simp only [h, if_false, Bool.false_eq_true]
      have hk : key.down k = false := by simpa using h
      have := ih (k + 1)
      revert this
      cases key.firstDownFrom n (k + 1) with
      | none =>
        intro this i hi hj
        rcases Nat.eq_or_lt_of_le hi with rfl | hi
        · exact hk
        · exact this i hi (by omega)
      | some j =>
        rintro ⟨h1, h2, h3, h4⟩
        refine ⟨by omega, by omega, h3, fun i hi hj => ?_⟩
        rcases Nat.eq_or_lt_of_le hi with rfl | hi
        · exact hk
        · exact h4 i hi hj

/-- `firstDown` answers the least key that is down. -/
theorem KeyVector.firstDown_eq_some {key : KeyVector} {k : Nat} (h : key.down k = true)
    (hmin : ∀ j, j < k → key.down j = false) : key.firstDown = some k := by
  have hs := KeyVector.firstDownFrom_spec key 16 0
  have hk := KeyVector.down_lt h
  simp only [KeyVector.firstDown, Config.numKeys]
  revert hs
  cases key.firstDownFrom 16 0 with
  | none => intro hs; have := hs k (by omega) (by omega); simp_all
  | some j =>
    rintro ⟨-, -, h3, h4⟩
    have h1 : ¬ j < k := fun hj => by have := hmin j hj; simp_all
    have h2 : ¬ k < j := fun hj => by have := h4 k (by omega) hj; simp_all
    rw [show j = k by omega]

/-- `firstDown` answers none exactly when every key is up. -/
theorem KeyVector.firstDown_eq_none {key : KeyVector} (h : ∀ k, k < 16 → key.down k = false) :
    key.firstDown = none := by
  have hs := KeyVector.firstDownFrom_spec key 16 0
  simp only [KeyVector.firstDown, Config.numKeys]
  revert hs
  cases key.firstDownFrom 16 0 with
  | none => intro; rfl
  | some j =>
    rintro ⟨-, h2, h3, -⟩
    have := h j (by omega)
    simp_all

/-! ### Transfers between registers and memory -/

section storeRegs
variable (base n : Nat) (s : State)

@[simp] theorem State.storeRegs_v : (State.storeRegs base n s).v = s.v := by
  induction n with | zero => rfl | succ n ih => simpa [State.storeRegs] using ih
@[simp] theorem State.storeRegs_i : (State.storeRegs base n s).i = s.i := by
  induction n with | zero => rfl | succ n ih => simpa [State.storeRegs] using ih
@[simp] theorem State.storeRegs_pc : (State.storeRegs base n s).pc = s.pc := by
  induction n with | zero => rfl | succ n ih => simpa [State.storeRegs] using ih
@[simp] theorem State.storeRegs_stack : (State.storeRegs base n s).stack = s.stack := by
  induction n with | zero => rfl | succ n ih => simpa [State.storeRegs] using ih
@[simp] theorem State.storeRegs_dt : (State.storeRegs base n s).dt = s.dt := by
  induction n with | zero => rfl | succ n ih => simpa [State.storeRegs] using ih
@[simp] theorem State.storeRegs_st : (State.storeRegs base n s).st = s.st := by
  induction n with | zero => rfl | succ n ih => simpa [State.storeRegs] using ih
@[simp] theorem State.storeRegs_fb : (State.storeRegs base n s).fb = s.fb := by
  induction n with | zero => rfl | succ n ih => simpa [State.storeRegs] using ih
@[simp] theorem State.storeRegs_key : (State.storeRegs base n s).key = s.key := by
  induction n with | zero => rfl | succ n ih => simpa [State.storeRegs] using ih
@[simp] theorem State.storeRegs_fault : (State.storeRegs base n s).fault = s.fault := by
  induction n with | zero => rfl | succ n ih => simpa [State.storeRegs] using ih
@[simp] theorem State.storeRegs_draws : (State.storeRegs base n s).draws = s.draws := by
  induction n with | zero => rfl | succ n ih => simpa [State.storeRegs] using ih
@[simp] theorem State.storeRegs_getV (r : Nibble) : (State.storeRegs base n s).getV r = s.getV r := by
  simp [State.getV]

end storeRegs

/-- Storing registers in range keeps the canonical form. -/
theorem State.storeRegs_wf {base n : Nat} {s : State} (hm : s.mem.wf = true) (h : base + n ≤ 0x1000) :
    (State.storeRegs base n s).mem.wf = true := by
  induction n with
  | zero => exact hm
  | succ n ih => exact Memory.wf_set (ih (by omega)) (by simp only [Config.memSize]; omega) _

/-- What memory reads after storing `n` registers from `base`. -/
theorem State.storeRegs_mem_get {base n : Nat} {s : State} (hm : s.mem.wf = true) (h : base + n ≤ 0x1000)
    (a : Nat) :
    (State.storeRegs base n s).mem.get a =
      if base ≤ a ∧ a < base + n then s.getV (BitVec.ofNat 4 (a - base)) else s.mem.get a := by
  induction n with
  | zero => rw [if_neg (by omega)]; rfl
  | succ n ih =>
    simp only [State.storeRegs, State.store_mem]
    rw [Memory.get_set (State.storeRegs_wf hm (by omega)), ih (by omega)]
    by_cases ha : a = base + n
    · subst ha; simp
    · rw [if_neg ha]
      by_cases h1 : base ≤ a ∧ a < base + n
      · rw [if_pos h1, if_pos (by omega)]
      · rw [if_neg h1, if_neg (by omega)]

section loadRegs
variable (base n : Nat) (s : State)

@[simp] theorem State.loadRegs_mem : (State.loadRegs base n s).mem = s.mem := by
  induction n with | zero => rfl | succ n ih => simpa [State.loadRegs] using ih
@[simp] theorem State.loadRegs_i : (State.loadRegs base n s).i = s.i := by
  induction n with | zero => rfl | succ n ih => simpa [State.loadRegs] using ih
@[simp] theorem State.loadRegs_pc : (State.loadRegs base n s).pc = s.pc := by
  induction n with | zero => rfl | succ n ih => simpa [State.loadRegs] using ih
@[simp] theorem State.loadRegs_stack : (State.loadRegs base n s).stack = s.stack := by
  induction n with | zero => rfl | succ n ih => simpa [State.loadRegs] using ih
@[simp] theorem State.loadRegs_dt : (State.loadRegs base n s).dt = s.dt := by
  induction n with | zero => rfl | succ n ih => simpa [State.loadRegs] using ih
@[simp] theorem State.loadRegs_st : (State.loadRegs base n s).st = s.st := by
  induction n with | zero => rfl | succ n ih => simpa [State.loadRegs] using ih
@[simp] theorem State.loadRegs_fb : (State.loadRegs base n s).fb = s.fb := by
  induction n with | zero => rfl | succ n ih => simpa [State.loadRegs] using ih
@[simp] theorem State.loadRegs_key : (State.loadRegs base n s).key = s.key := by
  induction n with | zero => rfl | succ n ih => simpa [State.loadRegs] using ih
@[simp] theorem State.loadRegs_fault : (State.loadRegs base n s).fault = s.fault := by
  induction n with | zero => rfl | succ n ih => simpa [State.loadRegs] using ih
@[simp] theorem State.loadRegs_draws : (State.loadRegs base n s).draws = s.draws := by
  induction n with | zero => rfl | succ n ih => simpa [State.loadRegs] using ih

end loadRegs

/-- What the registers hold after loading `n` of them from `base`. -/
theorem State.loadRegs_getV {base n : Nat} (h : n ≤ 16) (s : State) (r : Nibble) :
    (State.loadRegs base n s).getV r = if r.toNat < n then s.mem.get (base + r.toNat) else s.getV r := by
  induction n with
  | zero => rfl
  | succ n ih =>
    simp only [State.loadRegs, State.setV_getV, ih (by omega)]
    have hn : (BitVec.ofNat 4 n).toNat = n := by simp; omega
    by_cases hr : r = BitVec.ofNat 4 n
    · subst hr; rw [if_pos rfl, if_pos (by omega), hn]
    · have hne : r.toNat ≠ n := fun he => hr (by rw [← BitVec.toNat_inj, hn, he])
      rw [if_neg hr]
      by_cases h1 : r.toNat < n
      · rw [if_pos h1, if_pos (by omega)]
      · rw [if_neg h1, if_neg (by omega)]

end Sys2Proof.Machine
end

