-- ==== Sys2Proof/Laws/Exec.lean ====
section
/-! SUPPORT. The meanings that branch, one equation per branch, and the three ways a step goes. The other
meanings are equations already: they answer `.next` of one update of the state. -/

namespace Sys2Proof.Machine

theorem zextAddr_toNat (nnn : Addr12) : (zextAddr nnn).toNat = nnn.toNat := by
  have := nnn.isLt
  simp only [zextAddr, BitVec.toNat_setWidth]
  omega

theorem zextByte_toNat (b : Byte) : (zextByte b).toNat = b.toNat := by
  have := b.isLt
  simp only [zextByte, BitVec.toNat_setWidth]
  omega

/-- The target of `BNNN` never wraps (10_state.md R29). -/
theorem jpV0_target_toNat (nnn : Addr12) (b : Byte) :
    (zextAddr nnn + zextByte b).toNat = nnn.toNat + b.toNat := by
  have := nnn.isLt
  have := b.isLt
  rw [BitVec.toNat_add, zextAddr_toNat, zextByte_toNat]
  omega

variable {s : State}

/-! ### Stack -/

theorem execCall_ok {nnn : Addr12} (h : s.sp < stackCapacity) :
    execCall nnn s = .next ((s.setStack ((s.pc + 2#16) :: s.stack)).setPc (zextAddr nnn)) :=
  withPush_ok h

theorem execCall_full {nnn : Addr12} (h : stackCapacity ≤ s.sp) :
    execCall nnn s = .next { s with fault := .stackOverflow } :=
  withPush_full h

theorem execRet_ok {w : Word} {rest : List Word} (h : s.stack = w :: rest) :
    execRet s = .next ((s.setStack rest).setPc w) :=
  withPop_ok h

theorem execRet_empty (h : s.stack = []) : execRet s = .next { s with fault := .stackUnderflow } :=
  withPop_empty h

/-! ### Memory transfers -/

theorem execLdB_ok {x : Nibble} (h : s.i.toNat + 2 < 0x1000) :
    execLdB x s = .next (((s.store (effectiveAddr s 0) (bcdHundreds (s.getV x))).store (effectiveAddr s 1)
      (bcdTens (s.getV x))).store (effectiveAddr s 2) (bcdOnes (s.getV x))).advance :=
  withRange_ok (.inr (by simp only [effectiveAddr]; omega))

theorem execLdB_fault {x : Nibble} (h : 0x1000 ≤ s.i.toNat + 2) :
    execLdB x s = .next { s with fault := boundsFault s.i.toNat } :=
  withRange_fault (by omega) (by simp only [effectiveAddr]; omega)

theorem execStRegs_ok {x : Nibble} (h : s.i.toNat + x.toNat < 0x1000) :
    execStRegs x s = .next ((State.storeRegs s.i.toNat (x.toNat + 1) s).setI
      (s.i + x.setWidth 16)).advance :=
  withRange_ok (.inr (by simp only [effectiveAddr, transferCount]; omega))

theorem execStRegs_fault {x : Nibble} (h : 0x1000 ≤ s.i.toNat + x.toNat) :
    execStRegs x s = .next { s with fault := boundsFault s.i.toNat } :=
  withRange_fault (by simp only [transferCount]; omega)
    (by simp only [effectiveAddr, transferCount]; omega)

theorem execLdRegs_ok {x : Nibble} (h : s.i.toNat + x.toNat < 0x1000) :
    execLdRegs x s = .next ((State.loadRegs s.i.toNat (x.toNat + 1) s).setI
      (s.i + x.setWidth 16)).advance :=
  withRange_ok (.inr (by simp only [effectiveAddr, transferCount]; omega))

theorem execLdRegs_fault {x : Nibble} (h : 0x1000 ≤ s.i.toNat + x.toNat) :
    execLdRegs x s = .next { s with fault := boundsFault s.i.toNat } :=
  withRange_fault (by simp only [transferCount]; omega)
    (by simp only [effectiveAddr, transferCount]; omega)

/-- `I + X` as a 16-bit sum (44_index_memory.md R145, R146). -/
theorem index_increment_toNat (w : Word) (x : Nibble) :
    (w + x.setWidth 16).toNat = (w.toNat + x.toNat) % 65536 := by
  rw [BitVec.toNat_add, BitVec.toNat_setWidth, Nat.mod_eq_of_lt (a := x.toNat) (by omega)]

/-! ### Display -/

theorem execDrw_ok {x y n : Nibble}
    (h : visibleRows n (originY (s.getV y)) = 0 ∨
      s.i.toNat + visibleRows n (originY (s.getV y)) - 1 < 0x1000) :
    execDrw x y n s = .next ((s.setFb (spriteCanvas x y n s).fb).setV regVF
      (collisionFlag (spriteCanvas x y n s).collided)).advance :=
  withRange_ok (h.imp id (by simp only [effectiveAddr]; omega))

theorem execDrw_fault {x y n : Nibble} (h : 0 < visibleRows n (originY (s.getV y)))
    (h' : 0x1000 ≤ s.i.toNat + visibleRows n (originY (s.getV y)) - 1) :
    execDrw x y n s = .next { s with fault := boundsFault s.i.toNat } :=
  withRange_fault h (by simp only [effectiveAddr]; omega)

/-- The canvas of a sprite by its covered pixels. -/
theorem spriteCanvas_spec (x y n : Nibble) (s : State) :
    (∀ py px, (spriteCanvas x y n s).fb.pixel py px = (s.fb.pixel py px ^^
      spriteCovers s.mem s.i.toNat (originY (s.getV y)) (originX (s.getV x))
        (visibleRows n (originY (s.getV y))) py px)) ∧
    ((spriteCanvas x y n s).collided = true ↔ ∃ py px,
      spriteCovers s.mem s.i.toNat (originY (s.getV y)) (originX (s.getV x))
        (visibleRows n (originY (s.getV y))) py px = true ∧ s.fb.pixel py px = true) := by
  have h := Canvas.drawRows_spec s.mem s.i.toNat (originX (s.getV x)) (visibleRows n (originY (s.getV y)))
    (visibleRows_le n (originY_lt _)) ⟨s.fb, false⟩
  exact ⟨h.1, h.2.trans (by simp)⟩

/-! ### Keys -/

theorem execSkp_ok {x : Nibble} (h : (s.getV x).toNat < 16) :
    execSkp x s = .next (s.skipIf (s.key.down (s.getV x).toNat)) :=
  withKey_ok h

theorem execSkp_fault {x : Nibble} (h : 15 < (s.getV x).toNat) :
    execSkp x s = .next { s with fault := .keyIndex (s.getV x) } :=
  withKey_fault h

theorem execSknp_ok {x : Nibble} (h : (s.getV x).toNat < 16) :
    execSknp x s = .next (s.skipIf (!s.key.down (s.getV x).toNat)) :=
  withKey_ok h

theorem execSknp_fault {x : Nibble} (h : 15 < (s.getV x).toNat) :
    execSknp x s = .next { s with fault := .keyIndex (s.getV x) } :=
  withKey_fault h

theorem execLdVxK_down {x : Nibble} {k : Nat} (h : s.key.firstDown = some k) :
    execLdVxK x s = .next (s.setV x (BitVec.ofNat 8 k)).advance := by
  simp only [execLdVxK, h]

theorem execLdVxK_wait {x : Nibble} (h : s.key.firstDown = none) : execLdVxK x s = .next s := by
  simp only [execLdVxK, h]

/-! ### The step -/

theorem step_halted (h : s.fault ≠ .none) : step s = .next s := by
  unfold step
  split
  · contradiction
  · rfl

theorem step_fetchFault (h : s.fault = .none) (hpc : 0xFFE < s.pc.toNat) :
    step s = .next { s with fault := boundsFault s.pc.toNat } := by
  simp only [step, h]
  exact withRange_fault (by omega) (by omega)

theorem step_fetched (h : s.fault = .none) (hpc : s.pc.toNat ≤ 0xFFE) :
    step s = exec (decodeWord s.fetchWord) s := by
  simp only [step, h]
  exact withRange_ok (by omega)

end Sys2Proof.Machine
end

