-- ==== Sys2Proof/Laws/PerInstr.lean ====
section
/-! SUPPORT. Per instruction: the encoded opcode carries the fixed bits of its row of
spec/opcode_table.json (30_encoding.md R78, R81). -/

namespace Sys2Proof.Laws.RowMatch

/-- `mask` and `match` of the instruction's row of the opcode table. -/
def row : Instr → Word × Word
  | .sys _ => (0xF000#16, 0x0000#16)
  | .cls => (0xFFFF#16, 0x00E0#16)
  | .ret => (0xFFFF#16, 0x00EE#16)
  | .jp _ => (0xF000#16, 0x1000#16)
  | .call _ => (0xF000#16, 0x2000#16)
  | .seImm _ _ => (0xF000#16, 0x3000#16)
  | .sneImm _ _ => (0xF000#16, 0x4000#16)
  | .seReg _ _ => (0xF00F#16, 0x5000#16)
  | .ldImm _ _ => (0xF000#16, 0x6000#16)
  | .addImm _ _ => (0xF000#16, 0x7000#16)
  | .ldReg _ _ => (0xF00F#16, 0x8000#16)
  | .orReg _ _ => (0xF00F#16, 0x8001#16)
  | .andReg _ _ => (0xF00F#16, 0x8002#16)
  | .xorReg _ _ => (0xF00F#16, 0x8003#16)
  | .addReg _ _ => (0xF00F#16, 0x8004#16)
  | .sub _ _ => (0xF00F#16, 0x8005#16)
  | .shr _ _ => (0xF00F#16, 0x8006#16)
  | .subn _ _ => (0xF00F#16, 0x8007#16)
  | .shl _ _ => (0xF00F#16, 0x800E#16)
  | .sneReg _ _ => (0xF00F#16, 0x9000#16)
  | .ldI _ => (0xF000#16, 0xA000#16)
  | .jpV0 _ => (0xF000#16, 0xB000#16)
  | .rnd _ _ => (0xF000#16, 0xC000#16)
  | .drw _ _ _ => (0xF000#16, 0xD000#16)
  | .skp _ => (0xF0FF#16, 0xE09E#16)
  | .sknp _ => (0xF0FF#16, 0xE0A1#16)
  | .ldVxDt _ => (0xF0FF#16, 0xF007#16)
  | .ldVxK _ => (0xF0FF#16, 0xF00A#16)
  | .ldDtVx _ => (0xF0FF#16, 0xF015#16)
  | .ldStVx _ => (0xF0FF#16, 0xF018#16)
  | .addI _ => (0xF0FF#16, 0xF01E#16)
  | .ldF _ => (0xF0FF#16, 0xF029#16)
  | .ldB _ => (0xF0FF#16, 0xF033#16)
  | .stRegs _ => (0xF0FF#16, 0xF055#16)
  | .ldRegs _ => (0xF0FF#16, 0xF065#16)
  | .nop5 _ _ _ => (0xF000#16, 0x5000#16)
  | .nop8 _ _ _ => (0xF000#16, 0x8000#16)
  | .nop9 _ _ _ => (0xF000#16, 0x9000#16)
  | .nopE _ _ => (0xF000#16, 0xE000#16)
  | .nopF _ _ => (0xF000#16, 0xF000#16)

/-- The encoded opcode selects the row: `op & mask = match`. -/
def Statement (i : Instr) : Prop := encode i &&& (row i).1 = (row i).2

theorem formatNNN_family (f : Nibble) (nnn : Addr12) :
    formatNNN f nnn &&& 0xF000#16 = formatNNN f 0#12 := by
  apply BitVec.eq_of_getLsbD_eq
  intro i hi
  rw [BitVec.getLsbD_and, formatNNN_getLsbD, formatNNN_getLsbD]
  interval_cases i <;> simp

theorem formatXNN_family (f x : Nibble) (nn : Byte) :
    formatXNN f x nn &&& 0xF000#16 = formatXNN f 0#4 0#8 := by
  apply BitVec.eq_of_getLsbD_eq
  intro i hi
  rw [BitVec.getLsbD_and, formatXNN_getLsbD, formatXNN_getLsbD]
  interval_cases i <;> simp

theorem formatXNN_subcode (f x : Nibble) (nn : Byte) :
    formatXNN f x nn &&& 0xF0FF#16 = formatXNN f 0#4 nn := by
  apply BitVec.eq_of_getLsbD_eq
  intro i hi
  rw [BitVec.getLsbD_and, formatXNN_getLsbD, formatXNN_getLsbD]
  interval_cases i <;> simp

theorem formatXYN_family (f x y n : Nibble) :
    formatXYN f x y n &&& 0xF000#16 = formatXYN f 0#4 0#4 0#4 := by
  apply BitVec.eq_of_getLsbD_eq
  intro i hi
  rw [BitVec.getLsbD_and, formatXYN_getLsbD, formatXYN_getLsbD]
  interval_cases i <;> simp

theorem formatXYN_subcode (f x y n : Nibble) :
    formatXYN f x y n &&& 0xF00F#16 = formatXYN f 0#4 0#4 n := by
  apply BitVec.eq_of_getLsbD_eq
  intro i hi
  rw [BitVec.getLsbD_and, formatXYN_getLsbD, formatXYN_getLsbD]
  interval_cases i <;> simp

theorem sys (nnn : Addr12) : Statement (.sys nnn) :=
  (formatNNN_family _ _).trans rfl
theorem cls : Statement .cls := by simp only [Statement]; decide
theorem ret : Statement .ret := by simp only [Statement]; decide
theorem jp (nnn : Addr12) : Statement (.jp nnn) :=
  (formatNNN_family _ _).trans rfl
theorem call (nnn : Addr12) : Statement (.call nnn) :=
  (formatNNN_family _ _).trans rfl
theorem seImm (x : Nibble) (nn : Byte) : Statement (.seImm x nn) :=
  (formatXNN_family _ _ _).trans rfl
theorem sneImm (x : Nibble) (nn : Byte) : Statement (.sneImm x nn) :=
  (formatXNN_family _ _ _).trans rfl
theorem seReg (x : Nibble) (y : Nibble) : Statement (.seReg x y) :=
  (formatXYN_subcode _ _ _ _).trans rfl
theorem ldImm (x : Nibble) (nn : Byte) : Statement (.ldImm x nn) :=
  (formatXNN_family _ _ _).trans rfl
theorem addImm (x : Nibble) (nn : Byte) : Statement (.addImm x nn) :=
  (formatXNN_family _ _ _).trans rfl
theorem ldReg (x : Nibble) (y : Nibble) : Statement (.ldReg x y) :=
  (formatXYN_subcode _ _ _ _).trans rfl
theorem orReg (x : Nibble) (y : Nibble) : Statement (.orReg x y) :=
  (formatXYN_subcode _ _ _ _).trans rfl
theorem andReg (x : Nibble) (y : Nibble) : Statement (.andReg x y) :=
  (formatXYN_subcode _ _ _ _).trans rfl
theorem xorReg (x : Nibble) (y : Nibble) : Statement (.xorReg x y) :=
  (formatXYN_subcode _ _ _ _).trans rfl
theorem addReg (x : Nibble) (y : Nibble) : Statement (.addReg x y) :=
  (formatXYN_subcode _ _ _ _).trans rfl
theorem sub (x : Nibble) (y : Nibble) : Statement (.sub x y) :=
  (formatXYN_subcode _ _ _ _).trans rfl
theorem shr (x : Nibble) (y : Nibble) : Statement (.shr x y) :=
  (formatXYN_subcode _ _ _ _).trans rfl
theorem subn (x : Nibble) (y : Nibble) : Statement (.subn x y) :=
  (formatXYN_subcode _ _ _ _).trans rfl
theorem shl (x : Nibble) (y : Nibble) : Statement (.shl x y) :=
  (formatXYN_subcode _ _ _ _).trans rfl
theorem sneReg (x : Nibble) (y : Nibble) : Statement (.sneReg x y) :=
  (formatXYN_subcode _ _ _ _).trans rfl
theorem ldI (nnn : Addr12) : Statement (.ldI nnn) :=
  (formatNNN_family _ _).trans rfl
theorem jpV0 (nnn : Addr12) : Statement (.jpV0 nnn) :=
  (formatNNN_family _ _).trans rfl
theorem rnd (x : Nibble) (nn : Byte) : Statement (.rnd x nn) :=
  (formatXNN_family _ _ _).trans rfl
theorem drw (x : Nibble) (y : Nibble) (n : Nibble) : Statement (.drw x y n) :=
  (formatXYN_family _ _ _ _).trans rfl
theorem skp (x : Nibble) : Statement (.skp x) :=
  (formatXNN_subcode _ _ _).trans rfl
theorem sknp (x : Nibble) : Statement (.sknp x) :=
  (formatXNN_subcode _ _ _).trans rfl
theorem ldVxDt (x : Nibble) : Statement (.ldVxDt x) :=
  (formatXNN_subcode _ _ _).trans rfl
theorem ldVxK (x : Nibble) : Statement (.ldVxK x) :=
  (formatXNN_subcode _ _ _).trans rfl
theorem ldDtVx (x : Nibble) : Statement (.ldDtVx x) :=
  (formatXNN_subcode _ _ _).trans rfl
theorem ldStVx (x : Nibble) : Statement (.ldStVx x) :=
  (formatXNN_subcode _ _ _).trans rfl
theorem addI (x : Nibble) : Statement (.addI x) :=
  (formatXNN_subcode _ _ _).trans rfl
theorem ldF (x : Nibble) : Statement (.ldF x) :=
  (formatXNN_subcode _ _ _).trans rfl
theorem ldB (x : Nibble) : Statement (.ldB x) :=
  (formatXNN_subcode _ _ _).trans rfl
theorem stRegs (x : Nibble) : Statement (.stRegs x) :=
  (formatXNN_subcode _ _ _).trans rfl
theorem ldRegs (x : Nibble) : Statement (.ldRegs x) :=
  (formatXNN_subcode _ _ _).trans rfl
theorem nop5 (x : Nibble) (y : Nibble) (n : Nibble) : Statement (.nop5 x y n) :=
  (formatXYN_family _ _ _ _).trans rfl
theorem nop8 (x : Nibble) (y : Nibble) (n : Nibble) : Statement (.nop8 x y n) :=
  (formatXYN_family _ _ _ _).trans rfl
theorem nop9 (x : Nibble) (y : Nibble) (n : Nibble) : Statement (.nop9 x y n) :=
  (formatXYN_family _ _ _ _).trans rfl
theorem nopE (x : Nibble) (nn : Byte) : Statement (.nopE x nn) :=
  (formatXNN_family _ _ _).trans rfl
theorem nopF (x : Nibble) (nn : Byte) : Statement (.nopF x nn) :=
  (formatXNN_family _ _ _).trans rfl

end Sys2Proof.Laws.RowMatch
end

