-- ==== Sys2Proof/Tests/Slice0.lean ====
section
/-! SUPPORT. Tests. The expected results are the vectors and the encodings of spec/ (95_test_vectors.md,
30_encoding.md section 5), each test naming its vector; the last part meets the hypotheses of every
obligation that has some, clause by clause, at the ends of their ranges. -/

namespace Sys2Proof.Tests

open Sys2Proof Sys2Proof.Machine

/-! ### Well-formedness: an ill-formed term for each check -/

theorem test_wf_sys_not_cls : (Instr.sys 0x0E0#12).wf = false := by decide
theorem test_wf_sys_not_ret : (Instr.sys 0x0EE#12).wf = false := by decide
theorem test_wf_nop5 : (Instr.nop5 0x1#4 0x2#4 0x0#4).wf = false := by decide
theorem test_wf_nop8 : ∀ n ∈ [0x0#4, 0x1#4, 0x2#4, 0x3#4, 0x4#4, 0x5#4, 0x6#4, 0x7#4, 0xE#4],
    (Instr.nop8 0x1#4 0x2#4 n).wf = false := by decide
theorem test_wf_nop9 : (Instr.nop9 0x1#4 0x2#4 0x0#4).wf = false := by decide
theorem test_wf_nopE : ∀ nn ∈ [0x9E#8, 0xA1#8], (Instr.nopE 0x1#4 nn).wf = false := by decide
theorem test_wf_nopF : ∀ nn ∈ [0x07#8, 0x0A#8, 0x15#8, 0x18#8, 0x1E#8, 0x29#8, 0x33#8, 0x55#8, 0x65#8],
    (Instr.nopF 0x1#4 nn).wf = false := by decide
theorem test_wf_neighbours : (Instr.sys 0x0E1#12).wf && (Instr.nop5 0x1#4 0x2#4 0xF#4).wf &&
    (Instr.nop8 0x1#4 0x2#4 0x8#4).wf && (Instr.nop9 0x1#4 0x2#4 0x1#4).wf &&
    (Instr.nopE 0x1#4 0x9F#8).wf && (Instr.nopF 0x1#4 0x75#8).wf = true := by decide

/-! ### Decoding: for every row a word written out bit by bit, and a neighbour of each exact word -/

theorem test_decode_sys : decodeWord 0b0000000100100011#16 = .sys 0x123#12 ∧
    decodeWord 0b0000000011100001#16 = .sys 0x0E1#12 ∧
    decodeWord 0b0000000011101111#16 = .sys 0x0EF#12 := by decide
theorem test_decode_cls : decodeWord 0b0000000011100000#16 = .cls := by decide
theorem test_decode_ret : decodeWord 0b0000000011101110#16 = .ret := by decide
theorem test_decode_jp : decodeWord 0b0001101010111100#16 = .jp 0xABC#12 := by decide
theorem test_decode_call : decodeWord 0b0010111111101101#16 = .call 0xFED#12 := by decide
theorem test_decode_seImm : decodeWord 0b0011110001111111#16 = .seImm 0xC#4 0x7F#8 := by decide
theorem test_decode_sneImm : decodeWord 0b0100000101000010#16 = .sneImm 0x1#4 0x42#8 := by decide
theorem test_decode_seReg : decodeWord 0b0101000100100000#16 = .seReg 0x1#4 0x2#4 := by decide
theorem test_decode_ldImm : decodeWord 0b0110101000000101#16 = .ldImm 0xA#4 0x05#8 := by decide
theorem test_decode_addImm : decodeWord 0b0111101000000011#16 = .addImm 0xA#4 0x03#8 := by decide
theorem test_decode_ldReg : decodeWord 0b1000101010110000#16 = .ldReg 0xA#4 0xB#4 := by decide
theorem test_decode_orReg : decodeWord 0b1000101010110001#16 = .orReg 0xA#4 0xB#4 := by decide
theorem test_decode_andReg : decodeWord 0b1000101010110010#16 = .andReg 0xA#4 0xB#4 := by decide
theorem test_decode_xorReg : decodeWord 0b1000101010110011#16 = .xorReg 0xA#4 0xB#4 := by decide
theorem test_decode_addReg : decodeWord 0b1000101010110100#16 = .addReg 0xA#4 0xB#4 := by decide
theorem test_decode_sub : decodeWord 0b1000101010110101#16 = .sub 0xA#4 0xB#4 := by decide
theorem test_decode_shr : decodeWord 0b1000101010110110#16 = .shr 0xA#4 0xB#4 := by decide
theorem test_decode_subn : decodeWord 0b1000101010110111#16 = .subn 0xA#4 0xB#4 := by decide
theorem test_decode_shl : decodeWord 0b1000101010111110#16 = .shl 0xA#4 0xB#4 := by decide
theorem test_decode_sneReg : decodeWord 0b1001000100100000#16 = .sneReg 0x1#4 0x2#4 := by decide
theorem test_decode_ldI : decodeWord 0b1010001100001111#16 = .ldI 0x30F#12 := by decide
theorem test_decode_jpV0 : decodeWord 0b1011001011111111#16 = .jpV0 0x2FF#12 := by decide
theorem test_decode_rnd : decodeWord 0b1100001100001111#16 = .rnd 0x3#4 0x0F#8 := by decide
theorem test_decode_drw : decodeWord 0b1101100110100101#16 = .drw 0x9#4 0xA#4 0x5#4 := by decide
theorem test_decode_skp : decodeWord 0b1110000110011110#16 = .skp 0x1#4 := by decide
theorem test_decode_sknp : decodeWord 0b1110000110100001#16 = .sknp 0x1#4 := by decide
theorem test_decode_ldVxDt : decodeWord 0b1111001000000111#16 = .ldVxDt 0x2#4 := by decide
theorem test_decode_ldVxK : decodeWord 0b1111001000001010#16 = .ldVxK 0x2#4 := by decide
theorem test_decode_ldDtVx : decodeWord 0b1111001000010101#16 = .ldDtVx 0x2#4 := by decide
theorem test_decode_ldStVx : decodeWord 0b1111001000011000#16 = .ldStVx 0x2#4 := by decide
theorem test_decode_addI : decodeWord 0b1111000100011110#16 = .addI 0x1#4 := by decide
theorem test_decode_ldF : decodeWord 0b1111000100101001#16 = .ldF 0x1#4 := by decide
theorem test_decode_ldB : decodeWord 0b1111000100110011#16 = .ldB 0x1#4 := by decide
theorem test_decode_stRegs : decodeWord 0b1111001001010101#16 = .stRegs 0x2#4 := by decide
theorem test_decode_ldRegs : decodeWord 0b1111111001100101#16 = .ldRegs 0xE#4 := by decide
theorem test_decode_nop5 : decodeWord 0b0101000100100001#16 = .nop5 0x1#4 0x2#4 0x1#4 := by decide
theorem test_decode_nop8 : decodeWord 0b1000101010111001#16 = .nop8 0xA#4 0xB#4 0x9#4 := by decide
theorem test_decode_nop9 : decodeWord 0b1001000100100001#16 = .nop9 0x1#4 0x2#4 0x1#4 := by decide
theorem test_decode_nopE : decodeWord 0b1110000110011111#16 = .nopE 0x1#4 0x9F#8 := by decide
theorem test_decode_nopF : decodeWord 0b1111000101110101#16 = .nopF 0x1#4 0x75#8 := by decide

/-- V-E9: the first byte is the high one. -/
theorem test_decode_bytes : decodeBytes [0x12#8, 0x34#8, 0x56#8] = .ok (.jp 0x234#12, [0x56#8]) := rfl
theorem test_decode_no_byte : decodeBytes [] = .error .truncated := rfl
theorem test_decode_one_byte : decodeBytes [0x12#8] = .error .truncated := rfl
theorem test_decodeTableWord : decodeTableWord 16 0x8AB7 = some (.subn 0xA#4 0xB#4) := by decide
theorem test_encodeBytes : encodeBytes (.jp 0x234#12) = [0x12#8, 0x34#8] := by decide

/-! ### One step of each instruction -/

/-- One step with the word `w` at `pc`. -/
def run (w : Word) (s : State) : Result := step (s.withFetchWord 16 w.toNat)

/-- Does the result satisfy `p`? -/
def nextIs (r : Result) (p : State → Bool) : Bool :=
  match r with
  | .next t => p t
  | .fault _ => false
  | .refused _ => false

/-- The reset state with some registers loaded. -/
def regs (l : List (Nibble × Byte)) : State := l.foldl (fun s c => s.setV c.1 c.2) State.reset

/-- The reset state with `I` and some registers loaded. -/
def regsI (i : Word) (l : List (Nibble × Byte)) : State := (regs l).setI i

/-- Is the list the list of on pixels, as (x, y), in row order? -/
def onPixels (fb : Framebuffer) : List (Nat × Nat) :=
  (List.range 32).flatMap fun y => ((List.range 64).filter fun x => fb.pixel y x).map fun x => (x, y)

-- Flow
theorem test_jp_VF1 : nextIs (run 0x1ABC#16 .reset) (fun t => t.pc == 0xABC#16) := by decide
theorem test_jp_self_VF2 : nextIs (run 0x1200#16 .reset) (fun t => t == State.reset.withFetchWord 16 0x1200) := by
  decide
theorem test_call_VF5 : nextIs (run 0x2300#16 .reset)
    (fun t => t.pc == 0x300#16 && t.sp == 1 && t.stackEntry 0 == some 0x0202#16) := by decide
theorem test_call_VF9 : nextIs (run 0x2FFE#16 (State.reset.setPc 0xFFE#16))
    (fun t => t.pc == 0xFFE#16 && t.stackEntry 0 == some 0x1000#16) := by decide
theorem test_ret_VF6 : nextIs (run 0x00EE#16 ((State.reset.setPc 0x400#16).setStack [0x0300#16, 0x0206#16]))
    (fun t => t.pc == 0x300#16 && t.stack == [0x0206#16]) := by decide
theorem test_ret_empty_VF7 : nextIs (run 0x00EE#16 .reset)
    (fun t => t.fault == .stackUnderflow && t.pc == 0x200#16 && t.sp == 0) := by decide
theorem test_jpV0_VF11 : nextIs (run 0xB2FF#16 (regs [(0x0, 0x01)])) (fun t => t.pc == 0x300#16) := by decide
theorem test_jpV0_VF12 : nextIs (run 0xBFFF#16 (regs [(0x0, 0xFF)]))
    (fun t => t.pc == 0x10FE#16 && nextIs (step t) (fun u => u.fault == .memBounds 0x10FE#16)) := by decide

-- Skips
theorem test_seImm_VS1 : nextIs (run 0x3142#16 (regs [(0x1, 0x42)])) (fun t => t.pc == 0x204#16) := by decide
theorem test_seImm_VS2 : nextIs (run 0x3142#16 (regs [(0x1, 0x43)])) (fun t => t.pc == 0x202#16) := by decide
theorem test_sneImm_VS3 : nextIs (run 0x4142#16 (regs [(0x1, 0x42)])) (fun t => t.pc == 0x202#16) := by decide
theorem test_sneImm_VS4 : nextIs (run 0x4142#16 (regs [(0x1, 0x43)])) (fun t => t.pc == 0x204#16) := by decide
theorem test_seReg_VS5 : nextIs (run 0x5120#16 (regs [(0x1, 0x09), (0x2, 0x09)]))
    (fun t => t.pc == 0x204#16) := by decide
theorem test_seReg_VS6 : nextIs (run 0x5120#16 (regs [(0x1, 0x09), (0x2, 0x0A)]))
    (fun t => t.pc == 0x202#16) := by decide
theorem test_sneReg_VS8 : nextIs (run 0x9120#16 (regs [(0x1, 0x09), (0x2, 0x09)]))
    (fun t => t.pc == 0x202#16) := by decide
theorem test_sneReg_VS9 : nextIs (run 0x9120#16 (regs [(0x1, 0x09), (0x2, 0x0A)]))
    (fun t => t.pc == 0x204#16) := by decide

-- Constants
theorem test_ldImm_VC2 : nextIs (run 0x6FFF#16 .reset) (fun t => t.getV 0xF == 0xFF#8 && t.pc == 0x202#16) := by
  decide
theorem test_addImm_VC5 : nextIs (run 0x7FFF#16 (regs [(0xF, 0x01)])) (fun t => t.getV 0xF == 0x00#8) := by
  decide
theorem test_addImm_VC6 : nextIs (run 0x7180#16 (regs [(0x1, 0x80)]))
    (fun t => t.getV 0x1 == 0x00#8 && t.getV 0xF == 0x00#8) := by decide

-- ALU
theorem test_ldReg_VA1 : nextIs (run 0x8120#16 (regs [(0x1, 0x11), (0x2, 0x42), (0xF, 0x07)]))
    (fun t => t.getV 0x1 == 0x42#8 && t.getV 0xF == 0x07#8) := by decide
theorem test_orReg_VA7 : nextIs (run 0x8F21#16 (regs [(0xF, 0x0F), (0x2, 0xF0)]))
    (fun t => t.getV 0xF == 0x00#8) := by decide
theorem test_orReg_VA8 : nextIs (run 0x81F1#16 (regs [(0x1, 0xF0), (0xF, 0x0F)]))
    (fun t => t.getV 0x1 == 0xFF#8 && t.getV 0xF == 0x00#8) := by decide
theorem test_andReg_VA4 : nextIs (run 0x8122#16 (regs [(0x1, 0x3C), (0x2, 0x0F), (0xF, 0x01)]))
    (fun t => t.getV 0x1 == 0x0C#8 && t.getV 0xF == 0x00#8) := by decide
theorem test_xorReg_VA5 : nextIs (run 0x8123#16 (regs [(0x1, 0xFF), (0x2, 0x0F), (0xF, 0x01)]))
    (fun t => t.getV 0x1 == 0xF0#8 && t.getV 0xF == 0x00#8) := by decide
theorem test_addReg_VA10 : nextIs (run 0x8124#16 (regs [(0x1, 0xF0), (0x2, 0x0F), (0xF, 0x01)]))
    (fun t => t.getV 0x1 == 0xFF#8 && t.getV 0xF == 0x00#8) := by decide
theorem test_addReg_VA12 : nextIs (run 0x8FF4#16 (regs [(0xF, 0x80)])) (fun t => t.getV 0xF == 0x01#8) := by
  decide
theorem test_sub_VA16 : nextIs (run 0x8125#16 (regs [(0x1, 0x01), (0x2, 0x02)]))
    (fun t => t.getV 0x1 == 0xFF#8 && t.getV 0xF == 0x00#8) := by decide
theorem test_sub_VA21 : nextIs (run 0x81F5#16 (regs [(0x1, 0x10), (0xF, 0x01)]))
    (fun t => t.getV 0x1 == 0x0F#8 && t.getV 0xF == 0x01#8) := by decide
theorem test_shr_VA22 : nextIs (run 0x8126#16 (regs [(0x1, 0x77), (0x2, 0x05)]))
    (fun t => t.getV 0x1 == 0x02#8 && t.getV 0xF == 0x01#8) := by decide
theorem test_shr_VA26 : nextIs (run 0x8FF6#16 (regs [(0xF, 0x02)])) (fun t => t.getV 0xF == 0x00#8) := by decide
theorem test_subn_VA28 : nextIs (run 0x8127#16 (regs [(0x1, 0x02), (0x2, 0x01)]))
    (fun t => t.getV 0x1 == 0xFF#8 && t.getV 0xF == 0x00#8) := by decide
theorem test_subn_VA29 : nextIs (run 0x8127#16 (regs [(0x1, 0x05), (0x2, 0x05)]))
    (fun t => t.getV 0x1 == 0x00#8 && t.getV 0xF == 0x01#8) := by decide
theorem test_shl_VA32 : nextIs (run 0x812E#16 (regs [(0x1, 0x77), (0x2, 0x40)]))
    (fun t => t.getV 0x1 == 0x80#8 && t.getV 0xF == 0x00#8) := by decide
theorem test_shl_VA34 : nextIs (run 0x8F2E#16 (regs [(0x2, 0xC0)])) (fun t => t.getV 0xF == 0x01#8) := by decide

-- Index and memory
theorem test_ldI_VM1 : nextIs (run 0xAFFF#16 .reset) (fun t => t.i == 0x0FFF#16) := by decide
theorem test_addI_VM3 : nextIs (run 0xF11E#16 (regsI 0x0FFF#16 [(0x1, 0x01)]))
    (fun t => t.i == 0x1000#16 && t.getV 0xF == 0x00#8 && t.fault == .none) := by decide
theorem test_addI_VM4 : nextIs (run 0xF11E#16 (regsI 0xFFFF#16 [(0x1, 0x02)])) (fun t => t.i == 0x0001#16) := by
  decide
theorem test_ldF_VM6 : nextIs (run 0xF029#16 (regs [(0x0, 0x1A)])) (fun t => t.i == 0x0082#16) := by decide
theorem test_ldB_VM10 : nextIs (run 0xF033#16 (regsI 0x0FFD#16 [(0x0, 0x6D)]))
    (fun t => t.mem.get 0xFFD == 0x01#8 && t.mem.get 0xFFE == 0x00#8 && t.mem.get 0xFFF == 0x09#8) := by decide
theorem test_ldB_VM11 : nextIs (run 0xF033#16 (regsI 0x0FFE#16 [(0x0, 0x6D)]))
    (fun t => t.fault == .memBounds 0x1000#16 && t.pc == 0x200#16 && t.mem.get 0xFFE == 0x00#8) := by decide
theorem test_stRegs_VM13 : nextIs (run 0xF255#16 (regsI 0x0400#16 [(0x0, 0x11), (0x1, 0x22), (0x2, 0x33)]))
    (fun t => t.mem.get 0x400 == 0x11#8 && t.mem.get 0x401 == 0x22#8 && t.mem.get 0x402 == 0x33#8 &&
      t.i == 0x0402#16) := by decide
theorem test_stRegs_VM15 : nextIs (run 0xF155#16 (regsI 0x0FFF#16 [(0x0, 0xAB), (0x1, 0xCD)]))
    (fun t => t.fault == .memBounds 0x1000#16 && t.mem.get 0xFFF == 0x00#8 && t.i == 0x0FFF#16) := by decide
/-- Step 3 of S7. -/
theorem test_ldRegs_S7 : nextIs (run 0xF265#16
      (((((State.reset.store 0x400 0x11#8).store 0x401 0x22#8).store 0x402 0x33#8).setI 0x0400#16).setV 0x3 0x44#8))
    (fun t => t.getV 0x0 == 0x11#8 && t.getV 0x1 == 0x22#8 && t.getV 0x2 == 0x33#8 && t.getV 0x3 == 0x44#8 &&
      t.i == 0x0402#16) := by decide

-- Display
theorem test_cls_VD1 : nextIs (run 0x00E0#16 ((regs [(0xF, 0x01)]).setFb (Framebuffer.clear.setPixel 31 63 true)))
    (fun t => onPixels t.fb == [] && t.getV 0xF == 0x01#8) := by decide
/-- An upright glyph 1: it depends on the font bytes and on the bit order (logs 3, 4). -/
theorem test_drw_VD6 : nextIs (run 0xD015#16 (regsI 0x0055#16 []))
    (fun t => onPixels t.fb == [(2, 0), (1, 1), (2, 1), (2, 2), (2, 3), (1, 4), (2, 4), (3, 4)] &&
      t.getV 0xF == 0x00#8) := by decide
/-- The second draw of P4: clipped at both edges, every visible pixel turned off, a collision. -/
theorem test_drw_P4 : nextIs (run 0xD012#16
      ((((regsI 0x020C#16 [(0x0, 0x3E), (0x1, 0x1F)]).store 0x20C 0xFF#8).store 0x20D 0xFF#8).setFb
        ((Framebuffer.clear.setPixel 31 62 true).setPixel 31 63 true)))
    (fun t => onPixels t.fb == [] && t.getV 0xF == 0x01#8) := by decide

-- Keys, timers, random
/-- Key 15 down. -/
def key15 : KeyVector := (Vector.replicate 16 false).set 15 true

/-- Keys 3 and 7 down. -/
def keys37 : KeyVector := ((Vector.replicate 16 false).set 3 true).set 7 true

theorem test_skp_down : nextIs (run 0xE19E#16 (setKeys keys37 (regs [(0x1, 0x07)])))
    (fun t => t.pc == 0x204#16) := by decide
theorem test_skp_VK5 : nextIs (run 0xE19E#16 (regs [(0x1, 0x10)]))
    (fun t => t.fault == .keyIndex 0x10#8 && t.pc == 0x200#16) := by decide
theorem test_sknp_VK4 : nextIs (run 0xE1A1#16 (regs [(0x1, 0x0F)])) (fun t => t.pc == 0x204#16) := by decide
theorem test_sknp_VK6 : nextIs (run 0xE1A1#16 (regs [(0x1, 0xFF)])) (fun t => t.fault == .keyIndex 0xFF#8) := by
  decide
theorem test_ldVxK_VK7 : nextIs (run 0xF00A#16 .reset) (fun t => t == State.reset.withFetchWord 16 0xF00A) := by
  decide
theorem test_ldVxK_VK8 : nextIs (run 0xF00A#16 (setKeys keys37 .reset))
    (fun t => t.getV 0x0 == 0x03#8 && t.pc == 0x202#16) := by decide
theorem test_ldVxDt_VK10 : nextIs (run 0xF207#16 (State.reset.setDt 0x3C#8))
    (fun t => t.getV 0x2 == 0x3C#8 && t.dt == 0x3C#8) := by decide
theorem test_ldDtVx_VK11 : nextIs (run 0xF215#16 (regs [(0x2, 0x3C)])) (fun t => t.dt == 0x3C#8) := by decide
theorem test_ldStVx_VK12 : nextIs (run 0xF218#16 (regs [(0x2, 0x05)])) (fun t => t.st == 0x05#8) := by decide
theorem test_rnd_VK13 : nextIs (rndWith 0xA7#8 0x3#4 0x0F#8 .reset)
    (fun t => t.getV 0x3 == 0x07#8 && t.pc == 0x202#16) := by decide
theorem test_rnd_runs : nextIs (run 0xC30F#16 .reset) (fun t => t.pc == 0x202#16 && t.draws == 1) := by decide

-- No-ops: the start state of 95_test_vectors.md, part 2, section No-ops
/-- Is a step on the word a no-op in a state where a skip, a key test or a transfer would show? -/
def isNoop (w : Word) : Bool :=
  let s := regsI 0xFFFF#16 [(0x1, 0x10), (0x2, 0x10)]
  nextIs (run w s) (fun t => t == (s.withFetchWord 16 w.toNat).setPc 0x202#16)

theorem test_sys_VN1_to_4 : isNoop 0x0000#16 && isNoop 0x0123#16 && isNoop 0x00E1#16 && isNoop 0x00EF#16 := by
  decide
theorem test_nop5_VN5 : isNoop 0x5121#16 := by decide
theorem test_nop8_VN6_7 : isNoop 0x8128#16 && isNoop 0x812F#16 := by decide
theorem test_nop9_VN8 : isNoop 0x9121#16 := by decide
theorem test_nopE_VN9_10 : isNoop 0xE100#16 && isNoop 0xE19F#16 := by decide
theorem test_nopF_VN11_to_13 : isNoop 0xF100#16 && isNoop 0xF175#16 && isNoop 0xF1FF#16 := by decide

/-! ### Fetch, faults and host events -/

theorem test_fetch_VX1 : nextIs (run 0x6001#16 (State.reset.setPc 0xFFE#16))
    (fun t => t.getV 0x0 == 0x01#8 && t.pc == 0x1000#16) := by decide
theorem test_fetch_VX2 : nextIs (step (State.reset.setPc 0xFFF#16))
    (fun t => t.fault == .memBounds 0x1000#16 && t.pc == 0xFFF#16) := by decide
theorem test_fetch_odd_VX8 : nextIs (step (((State.reset.setPc 0x201#16).store 0x201 0x61#8).store 0x202 0x07#8))
    (fun t => t.getV 0x1 == 0x07#8 && t.pc == 0x203#16) := by decide
theorem test_halted_VX5 : nextIs (step (({ State.reset with fault := .stackUnderflow }.store 0x200 0x60#8).store
    0x201 0x01#8)) (fun t => t == ({ State.reset with fault := .stackUnderflow }.store 0x200 0x60#8).store
    0x201 0x01#8) := by decide
theorem test_tick_VT2 : nextIs (transition .tick ((State.reset.setDt 0x01#8).setSt 0xFF#8))
    (fun t => t.dt == 0x00#8 && t.st == 0xFE#8) := by decide
theorem test_tick_halted_VT4 : nextIs (transition .tick { State.reset.setDt 0x05#8 with fault := .stackUnderflow })
    (fun t => t.dt == 0x04#8 && t.fault == .stackUnderflow) := by decide
theorem test_setKeys_VX6 : nextIs (transition (.setKeys keys37) { State.reset with fault := .memBounds 0x1000#16 })
    (fun t => t.key == keys37 && t.fault == .memBounds 0x1000#16) := by decide
theorem test_reset_VX7 : nextIs (transition .reset { regs [(0x1, 0x01)] with fault := .stackOverflow })
    (fun t => t == State.reset) := by decide
theorem test_load : nextIs (transition (.load [0x12#8, 0x34#8]) .reset)
    (fun t => t.mem == [(0x200, 0x12#8), (0x201, 0x34#8)]) := by decide
theorem test_fault_codes : [FaultLatch.none, .memBounds 0x1000#16, .stackOverflow, .stackUnderflow,
    .keyIndex 0x10#8].map FaultLatch.code = [0, 1, 2, 3, 4] := by decide
theorem test_outputs : ((State.reset.setDt 0x03#8).setSt 0x05#8).outputs =
    ⟨Framebuffer.clear, 0x03#8, 0x05#8, .none⟩ := by decide
theorem test_reset_memory_wf : State.reset.mem.wf = true := by decide
theorem test_font_glyph_A : (List.range 5).map (fun k => State.reset.mem.get (0x082 + k)) =
    [0xF0#8, 0x90#8, 0xF0#8, 0x90#8, 0x90#8] := by decide
/-- Writing the reset contents back removes the cell. -/
theorem test_memory_canonical : Memory.set (Memory.set [] 0x300 0x01#8) 0x300 0x00#8 = [] ∧
    Memory.set (Memory.set [] 0x050 0x01#8) 0x050 0xF0#8 = [] := by decide

/-! ### The hypotheses of the obligations can be met -/

theorem witness_DecodeEncodeRoundTrip : (Instr.sys 0xFFF#12).wf = true ∧ (Instr.drw 0xF#4 0x0#4 0x0#4).wf = true ∧
    (Instr.nop8 0x0#4 0xF#4 0xF#4).wf = true ∧ (Instr.nopE 0x0#4 0x00#8).wf = true ∧
    (Instr.nopF 0xF#4 0xFF#8).wf = true := by decide

/-- A word for each clause of the table: by family, by sub-opcode with the greatest operands, and in each
fall-back. -/
theorem witness_DecodeSelectsByMaskAndMatch_family :
    ∀ c ∈ [0x0000#16, 0x1000#16, 0x2000#16, 0x3000#16, 0x4000#16, 0x5000#16, 0x6000#16, 0x7000#16, 0x8000#16,
      0x9000#16, 0xA000#16, 0xB000#16, 0xC000#16, 0xD000#16, 0xE000#16, 0xF000#16],
      (c + 0x0FFF#16) &&& 0xF000#16 = c := by simp
theorem witness_DecodeSelectsByMaskAndMatch_xyn :
    ∀ c ∈ [0x5000#16, 0x8000#16, 0x8001#16, 0x8002#16, 0x8003#16, 0x8004#16, 0x8005#16, 0x8006#16, 0x8007#16,
      0x800E#16, 0x9000#16], (c + 0x0FF0#16) &&& 0xF00F#16 = c := by simp
theorem witness_DecodeSelectsByMaskAndMatch_xss :
    ∀ c ∈ [0xE09E#16, 0xE0A1#16, 0xF007#16, 0xF00A#16, 0xF015#16, 0xF018#16, 0xF01E#16, 0xF029#16, 0xF033#16,
      0xF055#16, 0xF065#16], (c + 0x0F00#16) &&& 0xF0FF#16 = c := by simp
theorem witness_DecodeSelectsByMaskAndMatch_fallback059 :
    0x0FFF#16 ≠ 0x00E0#16 ∧ 0x0FFF#16 ≠ 0x00EE#16 ∧ 0x5FFF#16 &&& 0xF00F#16 ≠ 0x5000#16 ∧
      0x9FFF#16 &&& 0xF00F#16 ≠ 0x9000#16 := by simp
theorem witness_DecodeSelectsByMaskAndMatch_fallback8 :
    ∀ c ∈ [0x8000#16, 0x8001#16, 0x8002#16, 0x8003#16, 0x8004#16, 0x8005#16, 0x8006#16, 0x8007#16, 0x800E#16],
      ¬ 0x8FFF#16 &&& 0xF00F#16 = c := by simp
theorem witness_DecodeSelectsByMaskAndMatch_fallbackE :
    ∀ c ∈ [0xE09E#16, 0xE0A1#16], ¬ 0xEFFF#16 &&& 0xF0FF#16 = c := by simp
theorem witness_DecodeSelectsByMaskAndMatch_fallbackF :
    ∀ c ∈ [0xF007#16, 0xF00A#16, 0xF015#16, 0xF018#16, 0xF01E#16, 0xF029#16, 0xF033#16, 0xF055#16, 0xF065#16],
      ¬ 0xFFFF#16 &&& 0xF0FF#16 = c := by simp

theorem witness_StepRunsDecodedInstruction :
    ({ State.reset with fault := .stackOverflow } : State).fault ≠ .none ∧
    (State.reset.fault = .none ∧ 0xFFF < (State.reset.setPc 0x1000#16).pc.toNat) ∧
    (State.reset.setPc 0x0FFF#16).pc = 0x0FFF#16 ∧ (State.reset.setPc 0x0FFE#16).pc.toNat ≤ 0xFFE := by decide

theorem witness_PlacedWordRunsNext : (State.reset.store 0xFFF 0x01#8).mem.wf = true := by decide

theorem witness_AddImmediate : (0xE#4 : Nibble) ≠ 0xF#4 := by decide

theorem witness_SkipsOnImmediate : (State.reset.setPc 0x0FFC#16).pc = 0x0FFC#16 ∧
    State.reset.getV 0x1#4 = 0x00#8 ∧ State.reset.fault = .none := by decide

theorem witness_JumpToAddress : State.reset.pc.toNat = (0x200#12).toNat ∧
    (0xFFF#12 : Addr12) = 0xFFF#12 ∧ State.reset.fault = .none := by decide

/-- The least target that faults at the next fetch, reached with and without an offset, and the greatest. -/
theorem witness_JumpWithOffset : State.reset.fault = .none ∧
    0xFFE < (0xFFF#12).toNat + ((regs [(0x0, 0x00)]).getV 0x0#4).toNat ∧
    0xFFE < (0xF00#12).toNat + ((regs [(0x0, 0xFF)]).getV 0x0#4).toNat ∧
    0xFFE < (0xFFF#12).toNat + ((regs [(0x0, 0xFF)]).getV 0x0#4).toNat := by decide

/-- A stack of depth `n`. -/
def depth (n : Nat) : State := State.reset.setStack (List.replicate n 0x0202#16)

theorem depth_sp (n : Nat) : (depth n).sp = n := List.length_replicate

/-- Below the capacity by one, at the capacity, and at the depth the spec requires. -/
theorem witness_CallPushesReturnAddress : (depth (stackCapacity - 1)).sp < stackCapacity ∧
    (depth stackCapacity).sp = stackCapacity ∧ (depth 11).sp < 12 := by
  rw [depth_sp, depth_sp, depth_sp, stackCapacity]
  omega

theorem witness_ReturnPopsIntoPc : (depth 1).stack = 0x0202#16 :: [] ∧ State.reset.sp = 0 ∧
    ((State.reset.setStack [0x0FFF#16]).stack = 0x0FFF#16 :: [] ∧ 0xFFE < (0x0FFF#16).toNat ∧
      State.reset.fault = .none) := by decide

theorem witness_CallThenReturnRoundTrip : ∃ t u, (depth 11).sp < stackCapacity ∧
    exec (.call 0x300#12) (depth 11) = .next t ∧ t.setPc u.pc = u ∧ u.pc = 0x0456#16 := by
  refine ⟨((depth 11).setStack (0x0202#16 :: (depth 11).stack)).setPc 0x0300#16, (((depth 11).setStack
    (0x0202#16 :: (depth 11).stack)).setPc 0x0300#16).setPc 0x0456#16, ?_, ?_, rfl, rfl⟩
  · simp only [depth_sp, stackCapacity]; omega
  · exact execCall_ok (by simp only [depth_sp, stackCapacity]; omega)

theorem witness_StoreDecimalDigits : State.reset.mem.wf = true ∧
    (State.reset.setI 0x0FFD#16).i.toNat + 2 ≤ 0xFFF ∧ 0xFFF < (State.reset.setI 0x0FFE#16).i.toNat + 2 := by decide

theorem witness_StoreRegisters : State.reset.mem.wf = true ∧
    (State.reset.setI 0x0FF0#16).i.toNat + (0xF#4).toNat ≤ 0xFFF ∧
    (State.reset.setI 0x0FFF#16).i.toNat + (0x0#4).toNat ≤ 0xFFF ∧
    0xFFF < (State.reset.setI 0x0FF1#16).i.toNat + (0xF#4).toNat := by decide

theorem witness_LoadRegisters : (State.reset.setI 0x0FF0#16).i.toNat + (0xF#4).toNat ≤ 0xFFF ∧
    0xFFF < (State.reset.setI 0x0FFF#16).i.toNat + (0x1#4).toNat := by decide

/-- Step 1 of S7, then step 2: the registers are cleared and `I` is set back. -/
theorem witness_StoreThenLoadRegisters :
    let s := regsI 0x0400#16 [(0x0, 0x11), (0x1, 0x22), (0x2, 0x33)]
    ∃ t u : State, s.mem.wf = true ∧ s.i.toNat + (0x2#4).toNat ≤ 0xFFF ∧
      exec (.stRegs 0x2#4) s = .next t ∧ u.mem = t.mem ∧ u.i = s.i ∧ u.getV 0x2#4 = 0x00#8 :=
  ⟨_, { State.reset with i := 0x0400#16, mem := [(0x400, 0x11#8), (0x401, 0x22#8), (0x402, 0x33#8)] },
    by decide, by decide, rfl, by decide, by decide, by decide⟩

/-- The whole next opcode replaced, at an address in mid-memory and at the highest one, and its first byte
alone by the last register stored. -/
theorem witness_StoredBytesAreFetchedNext : State.reset.mem.wf = true ∧ State.reset.fault = .none ∧
    ((regsI 0x0202#16 [(0x0, 0x12), (0x1, 0x08)]).pc.toNat + 3 ≤ 0xFFF ∧
      (regsI 0x0202#16 [(0x0, 0x12), (0x1, 0x08)]).i.toNat + (0x1#4).toNat ≤ 0xFFF) ∧
    ((State.reset.setPc 0x0FFC#16).pc.toNat + 3 ≤ 0xFFF ∧
      (State.reset.setI 0x0FFE#16).i.toNat + (0x1#4).toNat ≤ 0xFFF) ∧
    (State.reset.setI 0x01F3#16).i.toNat + (0xF#4).toNat = State.reset.pc.toNat + 2 ∧
    (State.reset.setI 0x0FFD#16).i.toNat + 2 ≤ 0xFFF := by decide

/-- One row at 0x300 with its left bit set, drawn at (0, 0). -/
def oneBit : State := (State.reset.store 0x300 0x80#8).setI 0x0300#16

/-- No visible row; the last byte of memory; the first byte beyond; a hit and a miss. -/
theorem witness_DrawTogglesCoveredPixels :
    min (0x0#4).toNat (32 - 0) = 0 ∧ 0x0FFF + min (0x1#4).toNat (32 - 0) - 1 ≤ 0xFFF ∧
    (0 < min (0x2#4).toNat (32 - 0) ∧ 0xFFF < 0x0FFF + min (0x2#4).toNat (32 - 0) - 1) ∧
    (spriteCovers oneBit.mem 0x300 0 0 1 0 0 = true ∧
      (Framebuffer.clear.setPixel 0 0 true).pixel 0 0 = true) ∧
    (∀ py px, spriteCovers oneBit.mem 0x300 0 0 1 py px = true → State.reset.fb.pixel py px = false) :=
  ⟨by decide, by decide, by decide, by decide, fun py px _ => Framebuffer.pixel_clear py px⟩

theorem witness_DrawTwiceRestoresScreen : (0x0#4 : Nibble) ≠ 0xF#4 ∧ (0x1#4 : Nibble) ≠ 0xF#4 ∧
    oneBit.i.toNat + (0x1#4).toNat ≤ 0x1000 ∧ (∃ t, exec (.drw 0x0#4 0x1#4 0x1#4) oneBit = .next t) ∧
    (∀ py px, spriteCovers oneBit.mem 0x300 0 0 1 py px = true → oneBit.fb.pixel py px = false) ∧
    (∃ py px, spriteCovers oneBit.mem 0x300 0 0 1 py px = true) :=
  ⟨by decide, by decide, by decide, ⟨_, rfl⟩, fun py px _ => Framebuffer.pixel_clear py px, 0, 0, by decide⟩

theorem witness_SkipsOnKey : ((regs [(0x1, 0x0F)]).getV 0x1#4).toNat ≤ 15 ∧
    15 < ((regs [(0x1, 0x10)]).getV 0x1#4).toNat := by decide

theorem witness_WaitForKey : (keys37.down 3 = true ∧ ∀ j, j < 3 → keys37.down j = false) ∧
    (key15.down 15 = true ∧ ∀ j, j < 15 → key15.down j = false) ∧
    (∀ k, k < 16 → State.reset.key.down k = false) := by decide

theorem witness_UnknownOpcodesOnlyAdvance : ((0x0E1#12 : Addr12) ≠ 0x0E0#12 ∧ (0x0E1#12 : Addr12) ≠ 0x0EE#12) ∧
    0xF#4 ∈ [0x8#4, 0x9#4, 0xA#4, 0xB#4, 0xC#4, 0xD#4, 0xF#4] ∧ 0xA0#8 ∉ [0x9E#8, 0xA1#8] ∧
    0x64#8 ∉ [0x07#8, 0x0A#8, 0x15#8, 0x18#8, 0x1E#8, 0x29#8, 0x33#8, 0x55#8, 0x65#8] := by decide

theorem witness_UncomparedSkipsOnlyAdvance : (0x1#4 : Nibble) ≠ 0x0#4 := by decide

/-- A step that goes on and a step that faults, of a core that is not halted. -/
theorem witness_NextPcFollowsTable :
    (∃ t, State.reset.fault = .none ∧ step State.reset = .next t ∧ t.fault = .none) ∧
    (∃ t, step (State.reset.setPc 0x10FE#16) = .next t ∧ t.fault ≠ .none) :=
  ⟨⟨State.reset.advance, rfl, rfl, rfl⟩,
    ⟨{ State.reset.setPc 0x10FE#16 with fault := .memBounds 0x10FE#16 }, rfl, by decide⟩⟩

theorem witness_FaultsExactlyAsTabled : (State.reset.setPc 0x10FE#16).fault = .none := rfl

theorem witness_FaultingStepChangesOnlyLatch : ∃ t, (State.reset.setPc 0xFFF#16).fault = .none ∧
    step (State.reset.setPc 0xFFF#16) = .next t ∧ t.fault ≠ .none :=
  ⟨{ State.reset.setPc 0xFFF#16 with fault := .memBounds 0x1000#16 }, rfl, rfl, by decide⟩

/-- A halted core. -/
def haltedCore : State := { State.reset with fault := .keyIndex 0x10#8 }

/-- A halted core under a step, and under a reset. -/
theorem witness_OnlyResetLeavesHalt : haltedCore.halted ∧ (∃ t, transition .step haltedCore = .next t) ∧
    (∃ t, transition .reset haltedCore = .next t) ∧ Event.step ≠ .reset :=
  ⟨(fun h => nomatch h), ⟨_, rfl⟩, ⟨_, rfl⟩, (fun h => nomatch h)⟩

theorem witness_OnlyListedInstructionsWrite : (∃ t, exec .cls State.reset = .next t) ∧ ¬ mayWrite .mem .cls :=
  ⟨⟨_, rfl⟩, by simp [mayWrite]⟩

theorem witness_OnlyNamedRegistersChange : (∃ t, exec (.orReg 0x1#4 0x2#4) State.reset = .next t) ∧
    ¬ writesReg 0x2#4 (.orReg 0x1#4 0x2#4) :=
  ⟨⟨_, rfl⟩, by simp [writesReg]⟩

theorem witness_SoundTimerIsNeverRead : ∃ t, exec (.ldVxDt 0x1#4) (State.reset.setSt 0x05#8) = .next t :=
  ⟨_, rfl⟩

theorem witness_TerminalStateIsFixedPoint : (State.reset.withFetchWord 16 0x1200).terminal :=
  ⟨fun h => h rfl, by simp [State.fetchable, State.withFetchWord, State.reset], 0x200#12, by decide, by decide⟩

/-- The invariant at reset, and at its edge: the highest `pc`, a full stack of the highest return address. -/
theorem witness_StepKeepsInvariant : State.reset.Inv ∧ (∃ t, step State.reset = .next t) ∧
    ((State.reset.setPc 0x10FE#16).setStack (List.replicate stackCapacity 0x1000#16)).Inv := by
  refine ⟨⟨rfl, Nat.zero_le _, by decide, by simp [State.reset], trivial⟩, ⟨State.reset.advance, rfl⟩,
    ⟨rfl, ?_, by decide, ?_, trivial⟩⟩
  · exact le_of_eq List.length_replicate
  · intro w hw
    rw [List.eq_of_mem_replicate hw]
    decide

theorem witness_ScheduleKeepsInvariant : State.reset.Inv ∧
    (runSchedule [.load [0x12#8, 0x00#8], .step, .tick, .setKeys keys37, .step, .reset] State.reset =
      .next State.reset) :=
  ⟨⟨rfl, Nat.zero_le _, by decide, by simp [State.reset], trivial⟩, rfl⟩

theorem witness_TimersRiseOnlyWhenSet :
    let s := (regs [(0x2, 0xFF)]).withFetchWord 16 0xF215
    let u := (regs [(0x2, 0xFF)]).withFetchWord 16 0xF218
    (∃ t, transition .step s = .next t ∧ s.dt.toNat < t.dt.toNat) ∧
    (∃ t, transition .step u = .next t ∧ u.st.toNat < t.st.toNat) :=
  ⟨⟨_, rfl, by decide⟩, ⟨_, rfl, by decide⟩⟩

/-- The longest program, one byte more, and a state that is not the reset state. -/
theorem witness_LoadPlacesProgram : (List.replicate 3584 0x00#8).length ≤ 3584 ∧
    3584 < (List.replicate 3585 0x00#8).length ∧ State.reset.setPc 0x202#16 ≠ hostReset (State.reset.setPc 0x202#16) := by
  refine ⟨le_of_eq List.length_replicate, by rw [List.length_replicate]; omega, by decide⟩

end Sys2Proof.Tests
end

section
/-! PROOFS. The next `pc` (10_state.md R28, 60_exceptions.md R186): what a result may do to `pc`, one rule
per way a meaning ends (a next state, a range check, a push, a pop, a key number), then `exec` and `step`. -/

namespace Sys2Proof.Machine

/-- What R28 and R186 ask of the result `r` of running `i` in `s`: without a fault `pc` is as the table
says, with one it is as before. -/
def LeavesPcAsTabled (s : State) (i : Instr) (r : Result) : Prop :=
  ∀ t, r = .next t → (t.fault = .none → specNextPc s t i) ∧ (t.fault ≠ .none → t.pc = s.pc)

/-! ### Skips and keys -/

theorem State.skipIf_pc_of_iff (s : State) {c : Bool} {P : Prop} [Decidable P] (h : c = true ↔ P) :
    (s.skipIf c).pc = s.pc + (if P then 4#16 else 2#16) := by
  rw [State.skipIf_pc, apply_ite (s.pc + ·)]
  exact if_congr h rfl rfl

theorem State.skipIf_pc_of_iff_not (s : State) {c : Bool} {P : Prop} [Decidable P] (h : c = true ↔ ¬ P) :
    (s.skipIf c).pc = s.pc + (if P then 2#16 else 4#16) := by
  rw [State.skipIf_pc_of_iff s h, ite_not]

theorem State.firstDown_eq_none_iff {s : State} : s.key.firstDown = none ↔ ¬ s.someKeyDown := by
  constructor
  · rintro h ⟨k, hk, hdown⟩
    have hs := KeyVector.firstDownFrom_spec s.key 16 0
    rw [show s.key.firstDownFrom 16 0 = none from h] at hs
    have hup : s.key.down k = false := hs k (Nat.zero_le k) (by omega)
    simp [hup] at hdown
  · intro h
    exact KeyVector.firstDown_eq_none fun k hk => Bool.eq_false_of_not_eq_true fun hd => h ⟨k, hk, hd⟩

/-! ### One rule per way a meaning ends -/

section
variable {s : State} {i : Instr}

theorem leavesPcAsTabled_next {t : State} (hs : s.fault = .none) (hfault : t.fault = s.fault)
    (hpc : specNextPc s t i) : LeavesPcAsTabled s i (.next t) := by
  rintro _ ⟨⟩
  exact ⟨fun _ => hpc, fun h => absurd (hfault.trans hs) h⟩

theorem leavesPcAsTabled_raise {f : FaultLatch} (hf : f ≠ .none) : LeavesPcAsTabled s i (raise f s) := by
  rintro _ ⟨⟩
  exact ⟨fun h => absurd h hf, fun _ => rfl⟩

theorem leavesPcAsTabled_withRange {base count : Nat} {k : State → Result}
    (hk : LeavesPcAsTabled s i (k s)) : LeavesPcAsTabled s i (withRange base count s k) := by
  obtain ⟨-, -, h⟩ | ⟨-, h⟩ := withRange_cases base count s k
  · rw [h]
    exact leavesPcAsTabled_raise nofun
  · rwa [h]

theorem leavesPcAsTabled_withKey {b : Byte} {k : Bool → Result}
    (hk : LeavesPcAsTabled s i (k (s.key.down b.toNat))) : LeavesPcAsTabled s i (withKey b s k) := by
  by_cases hb : b.toNat < 16
  · rwa [withKey_ok hb]
  · rw [withKey_fault (by omega)]
    exact leavesPcAsTabled_raise nofun

theorem leavesPcAsTabled_withPush {w : Word} {k : State → Result}
    (hk : LeavesPcAsTabled s i (k (s.setStack (w :: s.stack)))) :
    LeavesPcAsTabled s i (withPush w s k) := by
  by_cases h : s.sp < stackCapacity
  · rwa [withPush_ok h]
  · rw [withPush_full (Nat.le_of_not_lt h)]
    exact leavesPcAsTabled_raise nofun

theorem leavesPcAsTabled_withPop {k : Word → State → Result}
    (hk : ∀ w rest, s.stack = w :: rest → LeavesPcAsTabled s i (k w (s.setStack rest))) :
    LeavesPcAsTabled s i (withPop s k) := by
  cases h : s.stack with
  | nil =>
    rw [withPop_empty h]
    exact leavesPcAsTabled_raise nofun
  | cons w rest =>
    rw [withPop_ok h]
    exact hk w rest h

end

/-! ### The instructions and the step -/

/-- `FX0A` goes on exactly when a key is down (R162). -/
theorem execLdVxK_leavesPcAsTabled {s : State} (hs : s.fault = .none) (x : Nibble) :
    LeavesPcAsTabled s (.ldVxK x) (execLdVxK x s) := by
  cases h : s.key.firstDown with
  | none =>
    rw [execLdVxK_wait h]
    have hup := State.firstDown_eq_none_iff.1 h
    exact leavesPcAsTabled_next hs rfl ⟨fun hdown => absurd hdown hup, fun _ => rfl⟩
  | some k =>
    rw [execLdVxK_down h]
    have hdown : s.someKeyDown := by
      by_contra hup
      simp [State.firstDown_eq_none_iff.2 hup] at h
    exact leavesPcAsTabled_next hs rfl ⟨fun _ => rfl, fun hup => absurd hdown hup⟩

theorem exec_leavesPcAsTabled {s : State} (hs : s.fault = .none) (i : Instr) :
    LeavesPcAsTabled s i (exec i s) := by
  cases i with
  | jp nnn => exact leavesPcAsTabled_next hs rfl (zextAddr_toNat nnn)
  | call nnn =>
    rw [exec, execCall]
    apply leavesPcAsTabled_withPush
    exact leavesPcAsTabled_next hs rfl (zextAddr_toNat nnn)
  | jpV0 nnn => exact leavesPcAsTabled_next hs rfl (jpV0_target_toNat nnn (s.getV regV0))
  | ret =>
    rw [exec, execRet]
    apply leavesPcAsTabled_withPop
    intro w rest h
    exact leavesPcAsTabled_next hs rfl (congrArg List.head? h)
  | seImm | seReg => exact leavesPcAsTabled_next hs (s.skipIf_fault _) (s.skipIf_pc_of_iff beq_iff_eq)
  | sneImm | sneReg => exact leavesPcAsTabled_next hs (s.skipIf_fault _) (s.skipIf_pc_of_iff_not bne_iff_ne)
  | skp =>
    rw [exec, execSkp]
    apply leavesPcAsTabled_withKey
    exact leavesPcAsTabled_next hs (s.skipIf_fault _) (s.skipIf_pc_of_iff Iff.rfl)
  | sknp =>
    rw [exec, execSknp]
    apply leavesPcAsTabled_withKey
    exact leavesPcAsTabled_next hs (s.skipIf_fault _) (s.skipIf_pc_of_iff_not (by simp))
  | ldVxK x => exact execLdVxK_leavesPcAsTabled hs x
  | drw | ldB =>
    apply leavesPcAsTabled_withRange
    exact leavesPcAsTabled_next hs rfl rfl
  | stRegs | ldRegs =>
    apply leavesPcAsTabled_withRange
    exact leavesPcAsTabled_next hs (by simp) (by simp [specNextPc])
  | sys | cls | ldImm | addImm | ldReg | orReg | andReg | xorReg | addReg | sub | shr | subn | shl | ldI
  | rnd | ldVxDt | ldDtVx | ldStVx | addI | ldF | nop5 | nop8 | nop9 | nopE | nopF =>
    exact leavesPcAsTabled_next hs rfl rfl

theorem step_leavesPcAsTabled {s : State} (hs : s.fault = .none) :
    LeavesPcAsTabled s (decodeWord s.fetchWord) (step s) := by
  simp only [step, hs]
  exact leavesPcAsTabled_withRange (exec_leavesPcAsTabled hs _)

/-- Settles O39: the fetch check and every instruction's meaning end in one of the ways ruled above. -/
theorem nextPcFollowsTable : Obligations.NextPcFollowsTable := by
  unfold Obligations.NextPcFollowsTable
  intro s t hs ht
  exact step_leavesPcAsTabled hs t ht

end Sys2Proof.Machine
end

section
/-! PROOFS. Control transfer (40_flow.md): what a new `pc` and a new stack leave unchanged, where the newest
stack entry stands, then `1NNN`, `2NNN` and `00EE`. -/

namespace Sys2Proof

@[simp] theorem decodeWord_jp (nnn : Addr12) : decodeWord (formatNNN 0x1#4 nnn) = .jp nnn := by
  simp [decodeWord]

@[simp] theorem decodeWord_call (nnn : Addr12) : decodeWord (formatNNN 0x2#4 nnn) = .call nnn := by
  simp [decodeWord]

end Sys2Proof

namespace Sys2Proof.Machine

variable {s : State}

/-! ### The state -/

theorem State.setPc_keepsAllBut (s : State) (w : Word) : keepsAllBut [.pc] s (s.setPc w) :=
  keepsAllBut_iff.2 (by simp [keeps])

theorem State.setStack_setPc_keepsAllBut (s : State) (l : List Word) (w : Word) :
    keepsAllBut [.pc, .stack] s ((s.setStack l).setPc w) :=
  keepsAllBut_iff.2 (by simp [keeps])

theorem State.setPc_eq_self {w : Word} (h : s.pc = w) : s.setPc w = s := by
  subst h
  rfl

theorem State.sp_of_stack_cons {w : Word} {rest : List Word} (h : s.stack = w :: rest) :
    s.sp = rest.length + 1 := by
  rw [State.sp, h, List.length_cons]

/-- Counted from the oldest (10_state.md R31), the newest entry has as many entries below it. -/
theorem State.stackEntry_of_stack_cons {w : Word} {rest : List Word} (h : s.stack = w :: rest) :
    s.stackEntry rest.length = some w := by
  simp [State.stackEntry, h]

/-! ### Obligations -/

/-- Settles O18: one equation of `execCall` per side of the capacity, which is at least 12. -/
theorem callPushesReturnAddress : Obligations.CallPushesReturnAddress := by
  unfold Obligations.CallPushesReturnAddress
  intro nnn s
  refine ⟨decodeWord_call nnn, fun hroom => ?pushes, fun hfull => execCall_full hfull.ge,
    fun hshallow => ?shallow⟩
  case pushes =>
    exact ⟨_, execCall_ok hroom, zextAddr_toNat nnn, rfl, State.sp_of_stack_cons rfl,
      State.stackEntry_of_stack_cons rfl, s.setStack_setPc_keepsAllBut _ _⟩
  case shallow => exact ⟨_, execCall_ok (hshallow.trans_le twelve_le_stackCapacity), rfl⟩

/-- Settles O19: one equation of `execRet` per shape of the stack; a popped value above 0xFFE is the `pc` of
a fetch out of range. -/
theorem returnPopsIntoPc : Obligations.ReturnPopsIntoPc := by
  unfold Obligations.ReturnPopsIntoPc
  intro s
  refine ⟨by decide, fun w rest hstack => ?pops, fun hempty => ?underflows⟩
  case underflows => exact execRet_empty (List.eq_nil_of_length_eq_zero hempty)
  case pops =>
    exact ⟨_, execRet_ok hstack, rfl, rfl, (State.sp_of_stack_cons hstack).symm,
      State.stackEntry_of_stack_cons hstack, s.setStack_setPc_keepsAllBut rest w,
      fun hw hs => step_fetchFault hs hw⟩

/-- Settles O16: `1NNN` only sets `pc`; from 0xFFF the fetch needs the byte at 0x1000. -/
theorem jumpToAddress : Obligations.JumpToAddress := by
  unfold Obligations.JumpToAddress
  intro nnn s
  refine ⟨decodeWord_jp nnn, s.setPc (zextAddr nnn), rfl, zextAddr_toNat nnn, s.setPc_keepsAllBut _,
    fun hself => ?_, ?_⟩
  · exact State.setPc_eq_self (BitVec.eq_of_toNat_eq (hself.trans (zextAddr_toNat nnn).symm))
  · rintro rfl hs
    have hpc : 0xFFE < (zextAddr 0xFFF#12).toNat := by decide
    exact step_fetchFault hs hpc

end Sys2Proof.Machine
end

section
/-! PROOFS. Skips on a comparison (41_skip.md): the decoded opcodes, the effect of `skipIf` under a test for
any condition, the fetch after a skip out of memory, then `3XNN`, `4XNN`, `5XY0` and `9XY0`. -/

namespace Sys2Proof

variable (x y : Nibble) (nn : Byte)

@[simp] theorem decodeWord_seImm : decodeWord (formatXNN 0x3#4 x nn) = .seImm x nn := by
  simp [decodeWord]

@[simp] theorem decodeWord_sneImm : decodeWord (formatXNN 0x4#4 x nn) = .sneImm x nn := by
  simp [decodeWord]

@[simp] theorem decodeWord_seReg : decodeWord (formatXYN 0x5#4 x y 0x0#4) = .seReg x y := by
  simp [decodeWord, decode5]

@[simp] theorem decodeWord_sneReg : decodeWord (formatXYN 0x9#4 x y 0x0#4) = .sneReg x y := by
  simp [decodeWord, decode9]

end Sys2Proof

namespace Sys2Proof.Machine

/-! ### `skipIf` -/

theorem State.skipIf_keepsAllBut (s : State) (c : Bool) : keepsAllBut [.pc] s (s.skipIf c) :=
  keepsAllBut_iff.2 (by simp [keeps])

theorem State.skipIf_skipEffect (s : State) {c : Bool} {P : Prop} (h : c = true ↔ P) :
    skipEffect s (s.skipIf c) P := by
  refine ⟨fun hP => ?skips, fun hP => ?advances, s.skipIf_keepsAllBut c⟩
  case skips => rw [State.skipIf_pc, if_pos (h.2 hP)]
  case advances => rw [State.skipIf_pc, if_neg (mt h.1 hP)]

/-- A skip at 0xFFC leads to 0x1000, which is the address the next fetch faults on (R110). -/
theorem step_of_skipEffect_at_0xFFC {s t : State} {P : Prop} (h : skipEffect s t P) (hP : P)
    (hpc : s.pc = 0x0FFC#16) (hs : s.fault = .none) :
    step t = .next { t with fault := .memBounds 0x1000#16 } := by
  obtain ⟨hskip, -, hkeeps⟩ := h
  have hfault : t.fault = .none := (hkeeps .fault (by decide)).trans hs
  have ht : t.pc = 0x1000#16 := by
    rw [hskip hP, hpc]
    rfl
  have hbounds : boundsFault t.pc.toNat = .memBounds 0x1000#16 := by
    rw [ht]
    decide
  rw [← hbounds]
  exact step_fetchFault hfault (by rw [ht]; decide)

/-! ### Obligations -/

/-- Settles O14: each meaning is a `skipIf` on the test of its condition, and the fault after 0xFFC is the
next fetch's. -/
theorem skipsOnImmediate : Obligations.SkipsOnImmediate := by
  unfold Obligations.SkipsOnImmediate
  intro x nn s
  have hse : skipEffect s (s.skipIf (s.getV x == nn)) (s.getV x = nn) := s.skipIf_skipEffect beq_iff_eq
  have hsne : skipEffect s (s.skipIf (s.getV x != nn)) (s.getV x ≠ nn) := s.skipIf_skipEffect bne_iff_ne
  exact ⟨decodeWord_seImm x nn, decodeWord_sneImm x nn,
    ⟨_, rfl, hse, fun hpc heq hs => step_of_skipEffect_at_0xFFC hse heq hpc hs⟩, ⟨_, rfl, hsne⟩⟩

/-- Settles O15: the tests of `5XY0` and `9XY0` compare two registers, and `skipIf` does the rest. -/
theorem skipsOnRegisters : Obligations.SkipsOnRegisters := by
  unfold Obligations.SkipsOnRegisters
  intro x y s
  exact ⟨decodeWord_seReg x y, decodeWord_sneReg x y,
    ⟨_, rfl, s.skipIf_skipEffect beq_iff_eq⟩, ⟨_, rfl, s.skipIf_skipEffect bne_iff_ne⟩⟩

end Sys2Proof.Machine
end

section
/-! PROOFS. Register-immediate instructions (42_const.md): the decoded opcodes, the sum of two bytes, the
effect of writing one register and going on, then `6XNN` and `7XNN`. -/

namespace Sys2Proof

variable (x : Nibble) (nn : Byte)

@[simp] theorem decodeWord_ldImm : decodeWord (formatXNN 0x6#4 x nn) = .ldImm x nn := by
  simp [decodeWord]

@[simp] theorem decodeWord_addImm : decodeWord (formatXNN 0x7#4 x nn) = .addImm x nn := by
  simp [decodeWord]

end Sys2Proof

namespace Sys2Proof.Machine

/-- Addition of bytes is the sum modulo 256 that R121 and R130 write. -/
theorem byte_add_eq_ofNat_mod (a b : Byte) : a + b = BitVec.ofNat 8 ((a.toNat + b.toNat) % 256) :=
  BitVec.eq_of_toNat_eq (by simp)

theorem State.setV_advance_keepsAllBut (s : State) (x : Nibble) (r : Byte) :
    keepsAllBut [.v, .pc] s (s.setV x r).advance :=
  keepsAllBut_iff.2 (by simp [keeps])

theorem State.setV_advance_resultEffect (s : State) (x : Nibble) (r : Byte) :
    resultEffect s (s.setV x r).advance x r :=
  ⟨s.setV_getV x r, rfl, s.setV_advance_keepsAllBut x r⟩

/-- A register that is not the destination, `VF` included, is as before. -/
theorem getV_of_resultEffect_of_ne {s t : State} {x q : Nibble} {r : Byte} (h : resultEffect s t x r)
    (hq : q ≠ x) : t.getV q = s.getV q := by
  obtain ⟨hregs, -, -⟩ := h
  rw [hregs q, if_neg hq]

/-! ### Obligations -/

/-- Settles O8: the meaning writes `VX` alone, so `VF` changes only as the destination. -/
theorem addImmediate : Obligations.AddImmediate := by
  unfold Obligations.AddImmediate
  intro x nn s
  rw [← byte_add_eq_ofNat_mod]
  have heffect := s.setV_advance_resultEffect x (s.getV x + nn)
  exact ⟨decodeWord_addImm x nn, _, rfl, heffect, fun hx => getV_of_resultEffect_of_ne heffect hx.symm⟩

/-- Settles O7: the meaning writes the immediate to `VX` and goes on. -/
theorem loadImmediate : Obligations.LoadImmediate := by
  unfold Obligations.LoadImmediate
  intro x nn s
  exact ⟨decodeWord_ldImm x nn, _, rfl, s.setV_advance_resultEffect x nn⟩

end Sys2Proof.Machine
end

section
/-! PROOFS. Register-register ALU instructions (43_alu.md): the decoded opcodes of family 8, the results and
flags as numbers, the effect of writing a result and a flag and going on, then `8XY0` to `8XY7` and `8XYE`. -/

namespace Sys2Proof

/-- Family 8 is selected on its low nibble alone, which `decode8` then compares (30_encoding.md R74). -/
@[simp] theorem decodeWord_formatXYN_8 (x y n : Nibble) :
    decodeWord (formatXYN 0x8#4 x y n) = decode8 x y n := by
  simp [decodeWord]

end Sys2Proof

namespace Sys2Proof.Machine

/-! ### Results -/

/-- Subtraction of bytes is the integer difference modulo 256 that R131 and R133 write. -/
theorem byte_sub_eq_ofInt_mod (a b : Byte) :
    a - b = BitVec.ofInt 8 ((a.toNat - b.toNat : Int) % 256) := by
  apply BitVec.eq_of_toNat_eq
  rw [BitVec.toNat_sub, BitVec.toNat_ofInt]
  omega

theorem byte_shiftRight_one_eq_ofNat_div (b : Byte) : b >>> 1 = BitVec.ofNat 8 (b.toNat / 2) := by
  apply BitVec.eq_of_toNat_eq
  rw [BitVec.toNat_ushiftRight, BitVec.toNat_ofNat, Nat.shiftRight_eq_div_pow]
  omega

theorem byte_shiftLeft_one_eq_ofNat_mod (b : Byte) : b <<< 1 = BitVec.ofNat 8 (2 * b.toNat % 256) := by
  apply BitVec.eq_of_toNat_eq
  rw [BitVec.toNat_shiftLeft, BitVec.toNat_ofNat, Nat.shiftLeft_eq]
  omega

/-! ### Flags -/

theorem flagByte_decide (p : Prop) [Decidable p] :
    flagByte (decide p) = if p then 0x01#8 else 0x00#8 := by
  simp [flagByte]

theorem flagByte_eq_ofNat (c : Bool) : flagByte c = BitVec.ofNat 8 c.toNat := by cases c <;> rfl

/-- The flag of bit `k` is that binary digit of the byte as a number. -/
theorem flagByte_getLsbD (b : Byte) (k : Nat) :
    flagByte (b.getLsbD k) = BitVec.ofNat 8 (b.toNat / 2 ^ k % 2) := by
  rw [flagByte_eq_ofNat, BitVec.getLsbD, Nat.toNat_testBit]

theorem carryFlag_eq_ite (a b : Byte) :
    carryFlag a b = if 255 < a.toNat + b.toNat then 0x01#8 else 0x00#8 :=
  flagByte_decide _

theorem noBorrowFlag_eq_ite (a b : Byte) :
    noBorrowFlag a b = if b.toNat ≤ a.toNat then 0x01#8 else 0x00#8 :=
  flagByte_decide _

theorem shiftedOutRight_eq_ofNat_mod (b : Byte) : shiftedOutRight b = BitVec.ofNat 8 (b.toNat % 2) := by
  rw [shiftedOutRight, flagByte_getLsbD, pow_zero, Nat.div_one]

/-- Bit 7 is the highest of a byte, so the quotient by 128 is that one digit. -/
theorem shiftedOutLeft_eq_ofNat_div (b : Byte) : shiftedOutLeft b = BitVec.ofNat 8 (b.toNat / 128) := by
  have hdigit : b.toNat / 2 ^ 7 % 2 = b.toNat / 128 := by omega
  rw [shiftedOutLeft, flagByte_getLsbD, hdigit]

/-! ### The state -/

theorem State.setVAndFlag_advance_keepsAllBut (s : State) (x : Nibble) (r c : Byte) :
    keepsAllBut [.v, .pc] s (s.setVAndFlag x r c).advance :=
  keepsAllBut_iff.2 (by simp [keeps])

/-- A result, the flag over it, and going on: `flaggedEffect` for every `X`, `VF` included. -/
theorem State.setVAndFlag_advance_flaggedEffect (s : State) (x : Nibble) (r c : Byte) :
    flaggedEffect s (s.setVAndFlag x r c).advance x r c :=
  ⟨s.setVAndFlag_getV x r c, rfl, s.setVAndFlag_advance_keepsAllBut x r c⟩

/-! ### Obligations -/

/-- Settles O10: the three meanings write their result and then the cleared flag. -/
theorem logicClearsFlag : Obligations.LogicClearsFlag := by
  unfold Obligations.LogicClearsFlag
  intro x y s
  exact ⟨decodeWord_formatXYN_8 x y 0x1#4, decodeWord_formatXYN_8 x y 0x2#4,
    decodeWord_formatXYN_8 x y 0x3#4,
    ⟨_, rfl, s.setVAndFlag_advance_flaggedEffect x _ clearedFlag⟩,
    ⟨_, rfl, s.setVAndFlag_advance_flaggedEffect x _ clearedFlag⟩,
    ⟨_, rfl, s.setVAndFlag_advance_flaggedEffect x _ clearedFlag⟩⟩

/-- Settles O11: the sum of bytes is the sum modulo 256, and `carryFlag` tests the sum of the old values. -/
theorem addWithCarryOut : Obligations.AddWithCarryOut := by
  unfold Obligations.AddWithCarryOut
  intro x y s
  rw [← byte_add_eq_ofNat_mod, ← carryFlag_eq_ite]
  exact ⟨decodeWord_formatXYN_8 x y 0x4#4, _, rfl, s.setVAndFlag_advance_flaggedEffect x _ _⟩

/-- Settles O12: `8XY5` and `8XY7` are one subtraction with its operands exchanged. -/
theorem subtractWithNoBorrow : Obligations.SubtractWithNoBorrow := by
  unfold Obligations.SubtractWithNoBorrow
  intro x y s
  simp only [← byte_sub_eq_ofInt_mod, ← noBorrowFlag_eq_ite]
  exact ⟨decodeWord_formatXYN_8 x y 0x5#4, decodeWord_formatXYN_8 x y 0x7#4,
    ⟨_, rfl, s.setVAndFlag_advance_flaggedEffect x _ _⟩,
    ⟨_, rfl, s.setVAndFlag_advance_flaggedEffect x _ _⟩⟩

/-- Settles O13: shifting by one is halving or doubling `VY`, and the bit shifted out is its lowest or
highest binary digit. -/
theorem shiftsReadVY : Obligations.ShiftsReadVY := by
  unfold Obligations.ShiftsReadVY
  intro x y s
  rw [← byte_shiftRight_one_eq_ofNat_div, ← shiftedOutRight_eq_ofNat_mod,
    ← byte_shiftLeft_one_eq_ofNat_mod, ← shiftedOutLeft_eq_ofNat_div]
  exact ⟨decodeWord_formatXYN_8 x y 0x6#4, decodeWord_formatXYN_8 x y 0xE#4,
    ⟨_, rfl, s.setVAndFlag_advance_flaggedEffect x _ _⟩,
    ⟨_, rfl, s.setVAndFlag_advance_flaggedEffect x _ _⟩⟩

/-- Settles O9: the meaning writes the old `VY` to `VX` and goes on. -/
theorem copyRegister : Obligations.CopyRegister := by
  unfold Obligations.CopyRegister
  intro x y s
  exact ⟨decodeWord_formatXYN_8 x y 0x0#4, _, rfl, s.setV_advance_resultEffect x (s.getV y)⟩

end Sys2Proof.Machine
end

section
/-! PROOFS. Index register and memory transfer (44_index_memory.md): the decoded opcodes of family F, the
address of a glyph and the digits of a byte as numbers, memory after the three stores of `FX33`, what the
instructions leave unchanged, then `ANNN`, `FX29`, `FX33`, `FX55` and `FX65`. -/

namespace Sys2Proof

@[simp] theorem decodeWord_ldI (nnn : Addr12) : decodeWord (formatNNN 0xA#4 nnn) = .ldI nnn := by
  simp [decodeWord]

/-- Family F is selected on its low byte alone, which `decodeF` then compares (30_encoding.md R74). -/
@[simp] theorem decodeWord_formatXNN_F (x : Nibble) (nn : Byte) :
    decodeWord (formatXNN 0xF#4 x nn) = decodeF x nn := by
  simp [decodeWord]

end Sys2Proof

namespace Sys2Proof.Machine

/-! ### Values -/

/-- Masking with 0x0F is the remainder modulo 16, and the highest glyph address, 0x09B, does not wrap. -/
theorem glyphAddr_toNat (b : Byte) : (glyphAddr b).toNat = 0x050 + b.toNat % 16 * 5 := by
  have hmask : (b &&& 0x0F#8).toNat = b.toNat % 16 := Nat.and_two_pow_sub_one_eq_mod b.toNat 4
  rw [glyphAddr, hmask, BitVec.toNat_ofNat]
  exact Nat.mod_eq_of_lt (by simp only [Config.fontBase]; omega)

section digits
variable (b : Byte)

theorem bcdHundreds_toNat : (bcdHundreds b).toNat = b.toNat / 100 := by
  rw [bcdHundreds, BitVec.toNat_ofNat]
  omega

theorem bcdTens_toNat : (bcdTens b).toNat = b.toNat / 10 % 10 := by
  rw [bcdTens, BitVec.toNat_ofNat]
  omega

theorem bcdOnes_toNat : (bcdOnes b).toNat = b.toNat % 10 := by
  rw [bcdOnes, BitVec.toNat_ofNat]
  omega

end digits

/-! ### Memory -/

/-- What memory reads after three bytes are stored at ascending addresses from `a`. -/
theorem Memory.get_set_set_set {m : Memory} (hm : m.wf = true) {a : Nat} (ha : a + 2 ≤ 0xFFF)
    (w₀ w₁ w₂ : Byte) (p : Nat) :
    (((m.set a w₀).set (a + 1) w₁).set (a + 2) w₂).get p =
      if p = a + 2 then w₂ else if p = a + 1 then w₁ else if p = a then w₀ else m.get p := by
  have hm₁ : (m.set a w₀).wf = true := Memory.wf_set hm (by simp only [Config.memSize]; omega) w₀
  have hm₂ : ((m.set a w₀).set (a + 1) w₁).wf = true :=
    Memory.wf_set hm₁ (by simp only [Config.memSize]; omega) w₁
  rw [Memory.get_set hm₂, Memory.get_set hm₁, Memory.get_set hm]

section transfer
variable {s : State} {x : Nibble}

/-- `FX55` in range puts `Vk` at `I + k` for `k = 0..X`. -/
theorem State.storeRegs_mem_get_covered (hm : s.mem.wf = true) (h : s.i.toNat + x.toNat ≤ 0xFFF)
    {k : Nibble} (hk : k.toNat ≤ x.toNat) :
    (State.storeRegs s.i.toNat (x.toNat + 1) s).mem.get (s.i.toNat + k.toNat) = s.getV k := by
  rw [State.storeRegs_mem_get hm (by omega), if_pos (by omega), Nat.add_sub_cancel_left,
    BitVec.ofNat_toNat, BitVec.setWidth_eq]

/-- `FX55` in range leaves every byte outside `I..I+X` as it was. -/
theorem State.storeRegs_mem_get_outside (hm : s.mem.wf = true) (h : s.i.toNat + x.toNat ≤ 0xFFF)
    {a : Nat} (ha : a < s.i.toNat ∨ s.i.toNat + x.toNat < a) :
    (State.storeRegs s.i.toNat (x.toNat + 1) s).mem.get a = s.mem.get a := by
  rw [State.storeRegs_mem_get hm (by omega), if_neg (by omega)]

end transfer

/-! ### Frames -/

section frames
variable (s : State) (base n : Nat) (w : Word)

theorem State.setI_advance_keepsAllBut : keepsAllBut [.i, .pc] s (s.setI w).advance :=
  keepsAllBut_iff.2 (by simp [keeps])

theorem State.store_store_store_advance_keepsAllBut (a₀ a₁ a₂ : Nat) (w₀ w₁ w₂ : Byte) :
    keepsAllBut [.mem, .pc] s (((s.store a₀ w₀).store a₁ w₁).store a₂ w₂).advance :=
  keepsAllBut_iff.2 (by simp [keeps])

theorem State.storeRegs_setI_advance_keepsAllBut :
    keepsAllBut [.mem, .i, .pc] s ((State.storeRegs base n s).setI w).advance :=
  keepsAllBut_iff.2 (by simp [keeps])

theorem State.loadRegs_setI_advance_keepsAllBut :
    keepsAllBut [.v, .i, .pc] s ((State.loadRegs base n s).setI w).advance :=
  keepsAllBut_iff.2 (by simp [keeps])

end frames

/-! ### Obligations -/

/-- Settles O24: the meaning is three stores in range, read back one address at a time. -/
theorem storeDecimalDigits : Obligations.StoreDecimalDigits := by
  unfold Obligations.StoreDecimalDigits
  intro x s
  refine ⟨decodeWord_formatXNN_F x 0x33#8, fun hm hfits => ?stores, execLdB_fault⟩
  case stores =>
    have hread := Memory.get_set_set_set hm hfits (bcdHundreds (s.getV x)) (bcdTens (s.getV x))
      (bcdOnes (s.getV x))
    refine ⟨_, execLdB_ok (Nat.lt_succ_of_le hfits), ?hundreds, ?tens, ?ones, fun a ha => ?outside, rfl,
      s.store_store_store_advance_keepsAllBut _ _ _ _ _ _⟩
    case hundreds => simp [effectiveAddr, hread, bcdHundreds_toNat]
    case tens => simp [effectiveAddr, hread, bcdTens_toNat]
    case ones => simp [effectiveAddr, hread, bcdOnes_toNat]
    case outside =>
      refine (hread a).trans ?_
      rw [if_neg (by omega), if_neg (by omega), if_neg (by omega)]

/-- Settles O25: in range the meaning stores `V0..VX` by `storeRegs` and increments `I`. -/
theorem storeRegisters : Obligations.StoreRegisters := by
  unfold Obligations.StoreRegisters
  intro x s
  refine ⟨decodeWord_formatXNN_F x 0x55#8, fun hm hfits => ?stores, execStRegs_fault⟩
  case stores =>
    exact ⟨_, execStRegs_ok (Nat.lt_succ_of_le hfits),
      fun _ hk => State.storeRegs_mem_get_covered hm hfits hk,
      fun _ ha => State.storeRegs_mem_get_outside hm hfits ha,
      index_increment_toNat s.i x, by simp, s.storeRegs_setI_advance_keepsAllBut _ _ _⟩

/-- Settles O26: in range the meaning loads `V0..VX` by `loadRegs` and increments `I`. -/
theorem loadRegisters : Obligations.LoadRegisters := by
  unfold Obligations.LoadRegisters
  intro x s
  refine ⟨decodeWord_formatXNN_F x 0x65#8, fun hfits => ?loads, execLdRegs_fault⟩
  case loads =>
    have hread := State.loadRegs_getV (base := s.i.toNat) (n := x.toNat + 1) x.isLt s
    exact ⟨_, execLdRegs_ok (Nat.lt_succ_of_le hfits),
      fun k hk => (hread k).trans (if_pos (Nat.lt_succ_of_le hk)),
      fun k hk => (hread k).trans (if_neg (Nat.not_lt.2 hk)),
      index_increment_toNat s.i x, by simp, s.loadRegs_setI_advance_keepsAllBut _ _ _⟩

/-- Settles O23: the meaning writes `I` alone, and the masked `VX` is its low nibble. -/
theorem glyphAddress : Obligations.GlyphAddress := by
  unfold Obligations.GlyphAddress
  intro x s
  exact ⟨decodeWord_formatXNN_F x 0x29#8, _, rfl, glyphAddr_toNat (s.getV x), rfl,
    s.setI_advance_keepsAllBut _⟩

/-- Settles O21: the meaning writes `I` alone, and zero-extension keeps the number. -/
theorem loadIndex : Obligations.LoadIndex := by
  unfold Obligations.LoadIndex
  intro nnn s
  exact ⟨decodeWord_ldI nnn, _, rfl, zextAddr_toNat nnn, rfl, s.setI_advance_keepsAllBut _⟩

end Sys2Proof.Machine
end

section
/-! PROOFS. Display (45_display.md): what a new frame buffer leaves unchanged, then `00E0`. -/

namespace Sys2Proof.Machine

/-! ### The state -/

theorem State.setFb_advance_keepsAllBut (s : State) (fb : Framebuffer) :
    keepsAllBut [.fb, .pc] s (s.setFb fb).advance :=
  keepsAllBut_iff.2 (by simp [keeps])

/-! ### Obligations -/

/-- Settles O29: the meaning puts the clear frame buffer in place of whatever `FB` held and goes on. -/
theorem clearScreen : Obligations.ClearScreen := by
  unfold Obligations.ClearScreen
  intro s
  exact ⟨by decide, _, rfl, Framebuffer.pixel_clear, rfl, s.setFb_advance_keepsAllBut _⟩

end Sys2Proof.Machine
end

section
/-! PROOFS. Keys and timers (46_key_timer_random.md): what a new timer value leaves unchanged, how `FX0A` ends
by the keys that are down, then `FX0A`, `FX07`, `FX15` and `FX18`. -/

namespace Sys2Proof.Machine

/-! ### The timers -/

theorem State.setDt_advance_keepsAllBut (s : State) (b : Byte) :
    keepsAllBut [.dt, .pc] s (s.setDt b).advance :=
  keepsAllBut_iff.2 (by simp [keeps])

theorem State.setSt_advance_keepsAllBut (s : State) (b : Byte) :
    keepsAllBut [.st, .pc] s (s.setSt b).advance :=
  keepsAllBut_iff.2 (by simp [keeps])

/-! ### Waiting for a key -/

theorem exec_ldVxK_of_leastDown {s : State} {k : Nat} (x : Nibble) (hdown : s.key.down k = true)
    (hleast : ∀ j, j < k → s.key.down j = false) :
    ∃ t, exec (.ldVxK x) s = .next t ∧ resultEffect s t x (BitVec.ofNat 8 k) :=
  ⟨_, execLdVxK_down (KeyVector.firstDown_eq_some hdown hleast), s.setV_advance_resultEffect x _⟩

theorem exec_ldVxK_of_allUp {s : State} (x : Nibble) (hup : ∀ k, k < 16 → s.key.down k = false) :
    exec (.ldVxK x) s = .next s :=
  execLdVxK_wait (KeyVector.firstDown_eq_none hup)

theorem getV_of_resultEffect_self {s t : State} {x : Nibble} {r : Byte} (h : resultEffect s t x r) :
    t.getV x = r := by
  obtain ⟨hregs, -, -⟩ := h
  rw [hregs x, if_pos rfl]

/-! ### Obligations -/

/-- Settles O34: whether `FX0A` goes on depends on the keys alone, which a tick leaves as they are and a key
event replaces. -/
theorem waitForKey : Obligations.WaitForKey := by
  unfold Obligations.WaitForKey
  intro x s
  refine ⟨decodeWord_formatXNN_F x 0x0A#8, fun k => exec_ldVxK_of_leastDown x, fun hup => ?waits⟩
  case waits =>
    have huptick : ∀ k, k < 16 → (tickTimers s).key.down k = false := by simpa using hup
    refine ⟨exec_ldVxK_of_allUp x hup, exec_ldVxK_of_allUp x huptick, fun key k hdown hleast => ?keyEvent⟩
    case keyEvent =>
      obtain ⟨t, hexec, heffect⟩ := exec_ldVxK_of_leastDown (s := setKeys key s) x hdown hleast
      exact ⟨t, hexec, getV_of_resultEffect_self heffect⟩

/-- Settles O35: each meaning writes one register or one timer and goes on. -/
theorem timersReadAndSet : Obligations.TimersReadAndSet := by
  unfold Obligations.TimersReadAndSet
  intro x s
  exact ⟨decodeWord_formatXNN_F x 0x07#8, decodeWord_formatXNN_F x 0x15#8, decodeWord_formatXNN_F x 0x18#8,
    ⟨_, rfl, s.setV_advance_resultEffect x s.dt⟩,
    ⟨_, rfl, rfl, rfl, s.setDt_advance_keepsAllBut _⟩,
    ⟨_, rfl, rfl, rfl, s.setSt_advance_keepsAllBut _⟩⟩

end Sys2Proof.Machine
end

section
/-! PROOFS. Opcodes without an effect (47_noop.md): families 0 and E by their sub-opcode, the fall-back row of
each family, the effect of going on, then `0NNN` and the unknown opcodes of families 8, E and F. -/

namespace Sys2Proof

variable {x y n : Nibble} {nn : Byte} {nnn : Addr12}

/-- Family 0 is selected on its low twelve bits, which `decode0` then compares (30_encoding.md R74). -/
@[simp] theorem decodeWord_formatNNN_0 (nnn : Addr12) :
    decodeWord (formatNNN 0x0#4 nnn) = decode0 nnn := by
  simp [decodeWord]

/-- Family E is selected on its low byte alone, which `decodeE` then compares (30_encoding.md R74). -/
@[simp] theorem decodeWord_formatXNN_E (x : Nibble) (nn : Byte) :
    decodeWord (formatXNN 0xE#4 x nn) = decodeE x nn := by
  simp [decodeWord]

theorem decode0_of_undefined (hcls : nnn ≠ 0x0E0#12) (hret : nnn ≠ 0x0EE#12) : decode0 nnn = .sys nnn := by
  rw [decode0, if_neg hcls, if_neg hret]

theorem decode8_of_mem_unknownSub8 (h : n ∈ unknownSub8) : decode8 x y n = .nop8 x y n := by
  simp only [unknownSub8, List.mem_cons, List.not_mem_nil, or_false] at h
  obtain rfl | rfl | rfl | rfl | rfl | rfl | rfl := h <;> rfl

theorem decodeE_of_not_mem_definedSubE (h : nn ∉ definedSubE) : decodeE x nn = .nopE x nn := by
  simp only [definedSubE, BitVec.ofNat_eq_ofNat, List.mem_cons, List.not_mem_nil, or_false,
    not_or] at h
  simp [decodeE, h]

theorem decodeF_of_not_mem_definedSubF (h : nn ∉ definedSubF) : decodeF x nn = .nopF x nn := by
  simp only [definedSubF, BitVec.ofNat_eq_ofNat, List.mem_cons, List.not_mem_nil, or_false,
    not_or] at h
  simp [decodeF, h]

end Sys2Proof

namespace Sys2Proof.Machine

/-! ### The state -/

theorem State.advance_noopEffect (s : State) : noopEffect s s.advance := ⟨rfl, s.setPc_keepsAllBut _⟩

/-! ### Obligations -/

/-- Settles O37: a sub-opcode outside the defined ones decodes to the fall-back row of its family, and the
meaning of each of these rows goes on without reading its operands. -/
theorem unknownOpcodesOnlyAdvance : Obligations.UnknownOpcodesOnlyAdvance := by
  unfold Obligations.UnknownOpcodesOnlyAdvance
  intro x y n nn nnn s
  have hnoop : ∃ t, noop s = .next t ∧ noopEffect s t := ⟨_, rfl, s.advance_noopEffect⟩
  refine ⟨fun hcls hret => ?sys, fun hn => ?nop8, fun hnn => ?nopE, fun hnn => ?nopF,
    hnoop, hnoop, hnoop, hnoop⟩
  case sys => rw [decodeWord_formatNNN_0, decode0_of_undefined hcls hret]
  case nop8 => rw [decodeWord_formatXYN_8, decode8_of_mem_unknownSub8 hn]
  case nopE => rw [decodeWord_formatXNN_E, decodeE_of_not_mem_definedSubE hnn]
  case nopF => rw [decodeWord_formatXNN_F, decodeF_of_not_mem_definedSubF hnn]

end Sys2Proof.Machine
end

section
/-! PROOFS. Encoding (30_encoding.md): family by family the decoder undoes the encoder and loses no bit of an
opcode; the fields of an opcode as numbers; an opcode that matches a row of the opcode table is built in that
row's format. -/

namespace Sys2Proof

/-! ### Decoding an encoded instruction -/

theorem decodeWord_formatXYN_5 (x y n : Nibble) :
    decodeWord (formatXYN 0x5#4 x y n) = decode5 x y n := by
  simp [decodeWord]

theorem decodeWord_formatXYN_9 (x y n : Nibble) :
    decodeWord (formatXYN 0x9#4 x y n) = decode9 x y n := by
  simp [decodeWord]

@[simp] theorem decodeWord_jpV0 (nnn : Addr12) : decodeWord (formatNNN 0xB#4 nnn) = .jpV0 nnn := by
  simp [decodeWord]

@[simp] theorem decodeWord_rnd (x : Nibble) (nn : Byte) : decodeWord (formatXNN 0xC#4 x nn) = .rnd x nn := by
  simp [decodeWord]

@[simp] theorem decodeWord_drw (x y n : Nibble) : decodeWord (formatXYN 0xD#4 x y n) = .drw x y n := by
  simp [decodeWord]

theorem decode5_of_ne_zero {n : Nibble} (x y : Nibble) (h : n ≠ 0x0#4) : decode5 x y n = .nop5 x y n :=
  if_neg h

theorem decode9_of_ne_zero {n : Nibble} (x y : Nibble) (h : n ≠ 0x0#4) : decode9 x y n = .nop9 x y n :=
  if_neg h

theorem decodeWord_encode {i : Instr} (h : i.wf = true) : decodeWord (encode i) = i := by
  cases i with
  | cls | ret => decide
  | sys nnn =>
    simp only [Instr.wf, Bool.and_eq_true, bne_iff_ne] at h
    obtain ⟨hcls, hret⟩ := h
    rw [encode, decodeWord_formatNNN_0, decode0_of_undefined hcls hret]
  | nop5 x y n => rw [encode, decodeWord_formatXYN_5, decode5_of_ne_zero x y (bne_iff_ne.1 h)]
  | nop8 x y n => rw [encode, decodeWord_formatXYN_8, decode8_of_mem_unknownSub8 (List.contains_iff_mem.1 h)]
  | nop9 x y n => rw [encode, decodeWord_formatXYN_9, decode9_of_ne_zero x y (bne_iff_ne.1 h)]
  | nopE x nn =>
    have hnn : nn ∉ definedSubE := by simpa [Instr.wf] using h
    rw [encode, decodeWord_formatXNN_E, decodeE_of_not_mem_definedSubE hnn]
  | nopF x nn =>
    have hnn : nn ∉ definedSubF := by simpa [Instr.wf] using h
    rw [encode, decodeWord_formatXNN_F, decodeF_of_not_mem_definedSubF hnn]
  | jp | call | seImm | sneImm | seReg | ldImm | addImm | sneReg | ldI | jpV0 | rnd | drw => simp [encode]
  | ldReg x y | orReg x y | andReg x y | xorReg x y | addReg x y | sub x y | shr x y | subn x y | shl x y =>
    exact decodeWord_formatXYN_8 x y _
  | skp x | sknp x => exact decodeWord_formatXNN_E x _
  | ldVxDt x | ldVxK x | ldDtVx x | ldStVx x | addI x | ldF x | ldB x | stRegs x | ldRegs x =>
    exact decodeWord_formatXNN_F x _

/-- Settles O1: a defined row's word selects its own sub-opcode, and a well-formed no-op holds no defined
sub-opcode. -/
theorem decodeEncodeRoundTrip : Obligations.DecodeEncodeRoundTrip := by
  unfold Obligations.DecodeEncodeRoundTrip
  intro i
  exact decodeWord_encode

/-! ### Encoding a decoded opcode -/

/-- The instruction `i` stands for the opcode `w`. -/
def StandsFor (i : Instr) (w : Word) : Prop := i.wf = true ∧ encode i = w

/-- The sub-opcodes of family 8 that are defined (43_alu.md). -/
def definedSub8 : List Nibble := [0x0, 0x1, 0x2, 0x3, 0x4, 0x5, 0x6, 0x7, 0xE]

theorem mem_definedSub8_or_mem_unknownSub8 : ∀ n, n ∈ definedSub8 ∨ n ∈ unknownSub8 := by decide

/-- One comparison of the decoder: a claim about both outcomes is a claim about the choice. -/
theorem standsFor_ite {c : Prop} [Decidable c] {i j : Instr} {w : Word} (hi : c → StandsFor i w)
    (hj : ¬ c → StandsFor j w) : StandsFor (if c then i else j) w := by
  split
  case isTrue h => exact hi h
  case isFalse h => exact hj h

theorem decode0_standsFor (nnn : Addr12) : StandsFor (decode0 nnn) (formatNNN 0x0#4 nnn) := by
  refine standsFor_ite ?_ fun hcls => standsFor_ite ?_ fun hret => ⟨by simp [Instr.wf, hcls, hret], rfl⟩
  all_goals rintro rfl; exact ⟨rfl, by decide⟩

theorem decode5_standsFor (x y n : Nibble) : StandsFor (decode5 x y n) (formatXYN 0x5#4 x y n) := by
  refine standsFor_ite ?_ fun hn => ⟨bne_iff_ne.2 hn, rfl⟩
  rintro rfl; exact ⟨rfl, rfl⟩

theorem decode9_standsFor (x y n : Nibble) : StandsFor (decode9 x y n) (formatXYN 0x9#4 x y n) := by
  refine standsFor_ite ?_ fun hn => ⟨bne_iff_ne.2 hn, rfl⟩
  rintro rfl; exact ⟨rfl, rfl⟩

theorem decode8_standsFor (x y n : Nibble) : StandsFor (decode8 x y n) (formatXYN 0x8#4 x y n) := by
  obtain h | h := mem_definedSub8_or_mem_unknownSub8 n
  · simp only [definedSub8, List.mem_cons, List.not_mem_nil, or_false] at h
    obtain rfl | rfl | rfl | rfl | rfl | rfl | rfl | rfl | rfl := h <;> exact ⟨rfl, rfl⟩
  · rw [decode8_of_mem_unknownSub8 h]
    exact ⟨List.contains_iff_mem.2 h, rfl⟩

theorem decodeE_standsFor (x : Nibble) (nn : Byte) : StandsFor (decodeE x nn) (formatXNN 0xE#4 x nn) := by
  by_cases h : nn ∈ definedSubE
  · simp only [definedSubE, List.mem_cons, List.not_mem_nil, or_false] at h
    obtain rfl | rfl := h <;> exact ⟨rfl, rfl⟩
  · rw [decodeE_of_not_mem_definedSubE h]
    exact ⟨by simpa [Instr.wf] using h, rfl⟩

theorem decodeF_standsFor (x : Nibble) (nn : Byte) : StandsFor (decodeF x nn) (formatXNN 0xF#4 x nn) := by
  by_cases h : nn ∈ definedSubF
  · simp only [definedSubF, List.mem_cons, List.not_mem_nil, or_false] at h
    obtain rfl | rfl | rfl | rfl | rfl | rfl | rfl | rfl | rfl := h <;> exact ⟨rfl, rfl⟩
  · rw [decodeF_of_not_mem_definedSubF h]
    exact ⟨by simpa [Instr.wf] using h, rfl⟩

/-- The sixteen families in their order, each with the format its rows are read in. -/
theorem decodeWord_standsFor (w : Word) : StandsFor (decodeWord w) w := by
  have hNNN := formatNNN_fields w
  have hXNN := formatXNN_fields w
  have hXYN := formatXYN_fields w
  have hf : opFamily w = BitVec.ofNat 4 (opFamily w).toNat := by simp
  have hlt := (opFamily w).isLt
  unfold decodeWord
  interval_cases (opFamily w).toNat <;> rw [hf] at hNNN hXNN hXYN
  · simpa only [hNNN] using decode0_standsFor (opNNN w)
  · exact ⟨rfl, hNNN⟩
  · exact ⟨rfl, hNNN⟩
  · exact ⟨rfl, hXNN⟩
  · exact ⟨rfl, hXNN⟩
  · simpa only [hXYN] using decode5_standsFor (opX w) (opY w) (opN w)
  · exact ⟨rfl, hXNN⟩
  · exact ⟨rfl, hXNN⟩
  · simpa only [hXYN] using decode8_standsFor (opX w) (opY w) (opN w)
  · simpa only [hXYN] using decode9_standsFor (opX w) (opY w) (opN w)
  · exact ⟨rfl, hNNN⟩
  · exact ⟨rfl, hNNN⟩
  · exact ⟨rfl, hXNN⟩
  · exact ⟨rfl, hXYN⟩
  · simpa only [hXNN] using decodeE_standsFor (opX w) (opNN w)
  · simpa only [hXNN] using decodeF_standsFor (opX w) (opNN w)

/-- Settles O2: the fields of an opcode make it again, and inside each family the chosen sub-opcode is the
opcode's own. -/
theorem encodeDecodeRoundTrip : Obligations.EncodeDecodeRoundTrip := by
  unfold Obligations.EncodeDecodeRoundTrip
  intro w
  exact decodeWord_standsFor w

/-! ### Fields as numbers (R73) -/

section numbers
variable (w : Word)

theorem opX_eq_ofNat_div : opX w = BitVec.ofNat 4 (w.toNat / 0x100) := by
  rw [opX, BitVec.extractLsb', Nat.shiftRight_eq_div_pow]

theorem opY_eq_ofNat_div : opY w = BitVec.ofNat 4 (w.toNat / 0x10) := by
  rw [opY, BitVec.extractLsb', Nat.shiftRight_eq_div_pow]

theorem opN_eq_ofNat : opN w = BitVec.ofNat 4 w.toNat := rfl

theorem opNN_eq_ofNat : opNN w = BitVec.ofNat 8 w.toNat := rfl

theorem opNNN_eq_ofNat : opNNN w = BitVec.ofNat 12 w.toNat := rfl

end numbers

/-! ### Mask and match -/

section masks
variable {w : Word} {f n : Nibble} {nn : Byte} {i : Instr}

theorem mask_family (w : Word) : w &&& 0xF000#16 = formatNNN (opFamily w) 0x000#12 := by
  conv_lhs => rw [← formatNNN_fields w]
  exact Laws.RowMatch.formatNNN_family _ _

theorem mask_subcodeXNN (w : Word) : w &&& 0xF0FF#16 = formatXNN (opFamily w) 0x0#4 (opNN w) := by
  conv_lhs => rw [← formatXNN_fields w]
  exact Laws.RowMatch.formatXNN_subcode _ _ _

theorem mask_subcodeXYN (w : Word) : w &&& 0xF00F#16 = formatXYN (opFamily w) 0x0#4 0x0#4 (opN w) := by
  conv_lhs => rw [← formatXYN_fields w]
  exact Laws.RowMatch.formatXYN_subcode _ _ _ _

theorem opFamily_eq_of_mask (h : w &&& 0xF000#16 = formatNNN f 0x000#12) : opFamily w = f := by
  simpa using congrArg opFamily ((mask_family w).symm.trans h)

/-- Rows of a whole family in the NNN format. -/
theorem decodeWord_of_maskNNN (hi : encode i = formatNNN f (opNNN w)) (hwf : i.wf = true)
    (h : w &&& 0xF000#16 = formatNNN f 0x000#12) : decodeWord w = i := by
  rw [← decodeWord_encode hwf, hi, ← opFamily_eq_of_mask h, formatNNN_fields]

/-- Rows of a whole family in the XNN format. -/
theorem decodeWord_of_maskXNN (hi : encode i = formatXNN f (opX w) (opNN w)) (hwf : i.wf = true)
    (h : w &&& 0xF000#16 = formatNNN f 0x000#12) : decodeWord w = i := by
  rw [← decodeWord_encode hwf, hi, ← opFamily_eq_of_mask h, formatXNN_fields]

/-- Rows of a whole family in the XYN format. -/
theorem decodeWord_of_maskXYN (hi : encode i = formatXYN f (opX w) (opY w) (opN w)) (hwf : i.wf = true)
    (h : w &&& 0xF000#16 = formatNNN f 0x000#12) : decodeWord w = i := by
  rw [← decodeWord_encode hwf, hi, ← opFamily_eq_of_mask h, formatXYN_fields]

/-- Rows selected on the low byte too. -/
theorem decodeWord_of_subcodeXNN (hi : encode i = formatXNN f (opX w) nn) (hwf : i.wf = true)
    (h : w &&& 0xF0FF#16 = formatXNN f 0x0#4 nn) : decodeWord w = i := by
  rw [mask_subcodeXNN] at h
  have hf : opFamily w = f := by simpa using congrArg opFamily h
  have hnn : opNN w = nn := by simpa using congrArg opNN h
  rw [← decodeWord_encode hwf, hi, ← hf, ← hnn, formatXNN_fields]

/-- Rows selected on the low nibble too. -/
theorem decodeWord_of_subcodeXYN (hi : encode i = formatXYN f (opX w) (opY w) n) (hwf : i.wf = true)
    (h : w &&& 0xF00F#16 = formatXYN f 0x0#4 0x0#4 n) : decodeWord w = i := by
  rw [mask_subcodeXYN] at h
  have hf : opFamily w = f := by simpa using congrArg opFamily h
  have hn : opN w = n := by simpa using congrArg opN h
  rw [← decodeWord_encode hwf, hi, ← hf, ← hn, formatXYN_fields]

/-- A word that matches no exact row of its family has none of their low nibbles. -/
theorem opN_not_mem_of_no_match (f : Nibble) {l : List Nibble}
    (hfam : w &&& 0xF000#16 = formatNNN f 0x000#12)
    (hno : ∀ c ∈ l.map (formatXYN f 0x0#4 0x0#4), ¬ w &&& 0xF00F#16 = c) : opN w ∉ l := by
  intro hmem
  refine hno _ (List.mem_map_of_mem hmem) ?_
  rw [mask_subcodeXYN, opFamily_eq_of_mask hfam]

/-- A word that matches no exact row of its family has none of their low bytes. -/
theorem opNN_not_mem_of_no_match (f : Nibble) {l : List Byte}
    (hfam : w &&& 0xF000#16 = formatNNN f 0x000#12)
    (hno : ∀ c ∈ l.map (formatXNN f 0x0#4), ¬ w &&& 0xF0FF#16 = c) : opNN w ∉ l := by
  intro hmem
  refine hno _ (List.mem_map_of_mem hmem) ?_
  rw [mask_subcodeXNN, opFamily_eq_of_mask hfam]

end masks

/-- Settles O3: an opcode that meets a row's mask and match is the encoding of the row's instruction with the
opcode's own fields, and one that meets no exact row of its family holds no defined sub-opcode. -/
theorem decodeSelectsByMaskAndMatch : Obligations.DecodeSelectsByMaskAndMatch := by
  unfold Obligations.DecodeSelectsByMaskAndMatch
  intro w
  simp only [← opX_eq_ofNat_div, ← opY_eq_ofNat_div, ← opN_eq_ofNat, ← opNN_eq_ofNat, ← opNNN_eq_ofNat]
  refine ⟨?cls, ?ret, ?sys, fun h => decodeWord_of_maskNNN rfl rfl h,
    fun h => decodeWord_of_maskNNN rfl rfl h, fun h => decodeWord_of_maskXNN rfl rfl h,
    fun h => decodeWord_of_maskXNN rfl rfl h, fun h => decodeWord_of_subcodeXYN rfl rfl h, ?nop5,
    fun h => decodeWord_of_maskXNN rfl rfl h, fun h => decodeWord_of_maskXNN rfl rfl h,
    fun h => decodeWord_of_subcodeXYN rfl rfl h, fun h => decodeWord_of_subcodeXYN rfl rfl h,
    fun h => decodeWord_of_subcodeXYN rfl rfl h, fun h => decodeWord_of_subcodeXYN rfl rfl h,
    fun h => decodeWord_of_subcodeXYN rfl rfl h, fun h => decodeWord_of_subcodeXYN rfl rfl h,
    fun h => decodeWord_of_subcodeXYN rfl rfl h, fun h => decodeWord_of_subcodeXYN rfl rfl h,
    fun h => decodeWord_of_subcodeXYN rfl rfl h, ?nop8, fun h => decodeWord_of_subcodeXYN rfl rfl h, ?nop9,
    fun h => decodeWord_of_maskNNN rfl rfl h, fun h => decodeWord_of_maskNNN rfl rfl h,
    fun h => decodeWord_of_maskXNN rfl rfl h, fun h => decodeWord_of_maskXYN rfl rfl h,
    fun h => decodeWord_of_subcodeXNN rfl rfl h, fun h => decodeWord_of_subcodeXNN rfl rfl h, ?nopE,
    fun h => decodeWord_of_subcodeXNN rfl rfl h, fun h => decodeWord_of_subcodeXNN rfl rfl h,
    fun h => decodeWord_of_subcodeXNN rfl rfl h, fun h => decodeWord_of_subcodeXNN rfl rfl h,
    fun h => decodeWord_of_subcodeXNN rfl rfl h, fun h => decodeWord_of_subcodeXNN rfl rfl h,
    fun h => decodeWord_of_subcodeXNN rfl rfl h, fun h => decodeWord_of_subcodeXNN rfl rfl h,
    fun h => decodeWord_of_subcodeXNN rfl rfl h, ?nopF⟩
  case cls => rintro rfl; decide
  case ret => rintro rfl; decide
  case sys =>
    intro hfam hcls hret
    have hw : formatNNN 0x0#4 (opNNN w) = w := opFamily_eq_of_mask (f := 0x0#4) hfam ▸ formatNNN_fields w
    have hcls' : opNNN w ≠ 0x0E0#12 := fun h => hcls (by rw [← hw, h]; decide)
    have hret' : opNNN w ≠ 0x0EE#12 := fun h => hret (by rw [← hw, h]; decide)
    exact decodeWord_of_maskNNN rfl (by simp [Instr.wf, hcls', hret']) hfam
  case nop5 =>
    intro hfam hno
    have hn : opN w ∉ [0x0#4] := opN_not_mem_of_no_match 0x5#4 hfam (List.forall_mem_singleton.2 hno)
    exact decodeWord_of_maskXYN rfl (by simpa [Instr.wf] using hn) hfam
  case nop9 =>
    intro hfam hno
    have hn : opN w ∉ [0x0#4] := opN_not_mem_of_no_match 0x9#4 hfam (List.forall_mem_singleton.2 hno)
    exact decodeWord_of_maskXYN rfl (by simpa [Instr.wf] using hn) hfam
  case nop8 =>
    intro hfam hno
    have hn : opN w ∉ definedSub8 := opN_not_mem_of_no_match 0x8#4 hfam hno
    have hmem : opN w ∈ unknownSub8 := (mem_definedSub8_or_mem_unknownSub8 _).resolve_left hn
    exact decodeWord_of_maskXYN rfl (List.contains_iff_mem.2 hmem) hfam
  case nopE =>
    intro hfam h9E hA1
    have hnn : opNN w ∉ definedSubE := opNN_not_mem_of_no_match 0xE#4 hfam
      (List.forall_mem_cons.2 ⟨h9E, List.forall_mem_singleton.2 hA1⟩)
    exact decodeWord_of_maskXNN rfl (by simpa [Instr.wf] using hnn) hfam
  case nopF =>
    intro hfam hno
    have hnn : opNN w ∉ definedSubF := opNN_not_mem_of_no_match 0xF#4 hfam hno
    exact decodeWord_of_maskXNN rfl (by simpa [Instr.wf] using hnn) hfam

/-- Settles O4: the words are closed, so the decoder is run on them. -/
theorem wordsOfTheDecodingVectors : Obligations.WordsOfTheDecodingVectors := by
  unfold Obligations.WordsOfTheDecodingVectors
  decide

end Sys2Proof
end

section
/-! PROOFS. Every instruction and every step at once: how each ends (in its effect, or in the fault of the
tables of 60_exceptions.md), then what the effects write and leave unchanged (10_state.md R20). -/

namespace Sys2Proof.Machine

/-! ### How a meaning ends -/

/-- The result `r` of running in `s` is the state `t` if `f` is `NONE`, and else the fault `f` taken in `s`. -/
def EndsAs (s : State) (f : FaultLatch) (t : State) (r : Result) : Prop :=
  (f = .none ∧ r = .next t) ∨ (f ≠ .none ∧ r = raise f s)

section
variable {s t : State} {f : FaultLatch} {r : Result}

theorem endsAs_next : EndsAs s .none t (.next t) := .inl ⟨rfl, rfl⟩

theorem endsAs_check {c : Prop} [Decidable c] (hf : f ≠ .none) (hfault : c → r = raise f s)
    (hok : ¬ c → r = .next t) : EndsAs s (if c then f else .none) t r := by
  by_cases h : c
  · exact .inr ⟨by rwa [if_pos h], by rw [if_pos h, hfault h]⟩
  · exact .inl ⟨if_neg h, hok h⟩

theorem EndsAs.eq_next (h : EndsAs s f t r) (hf : f = .none) : r = .next t := by
  obtain ⟨-, hr⟩ | ⟨hne, -⟩ := h
  · exact hr
  · exact absurd hf hne

theorem EndsAs.eq_raise (h : EndsAs s f t r) (hf : f ≠ .none) : r = raise f s := by
  obtain ⟨hnone, -⟩ | ⟨-, hr⟩ := h
  · exact absurd hnone hf
  · exact hr

/-- All that a next state `u` can be. -/
theorem EndsAs.next_cases {u : State} (h : EndsAs s f t r) (hr : r = .next u) :
    (f = .none ∧ u = t) ∨ (f ≠ .none ∧ u = { s with fault := f }) := by
  obtain ⟨hf, h⟩ | ⟨hf, h⟩ := h <;> cases h.symm.trans hr
  · exact .inl ⟨hf, rfl⟩
  · exact .inr ⟨hf, rfl⟩

end

/-- The state an instruction leaves when it raises no fault; `exec_endsAs` ties it to `exec`. -/
def effect (i : Instr) (s : State) : State :=
  match i with
  | .cls => (s.setFb Framebuffer.clear).advance
  | .ret => (s.setStack s.stack.tail).setPc (s.stack.headD s.pc)
  | .jp nnn => s.setPc (zextAddr nnn)
  | .call nnn => (s.setStack ((s.pc + 2#16) :: s.stack)).setPc (zextAddr nnn)
  | .seImm x nn => s.skipIf (s.getV x == nn)
  | .sneImm x nn => s.skipIf (s.getV x != nn)
  | .seReg x y => s.skipIf (s.getV x == s.getV y)
  | .sneReg x y => s.skipIf (s.getV x != s.getV y)
  | .ldImm x nn => (s.setV x nn).advance
  | .addImm x nn => (s.setV x (s.getV x + nn)).advance
  | .ldReg x y => (s.setV x (s.getV y)).advance
  | .orReg x y => (s.setVAndFlag x (s.getV x ||| s.getV y) clearedFlag).advance
  | .andReg x y => (s.setVAndFlag x (s.getV x &&& s.getV y) clearedFlag).advance
  | .xorReg x y => (s.setVAndFlag x (s.getV x ^^^ s.getV y) clearedFlag).advance
  | .addReg x y => (s.setVAndFlag x (s.getV x + s.getV y) (carryFlag (s.getV x) (s.getV y))).advance
  | .sub x y => (s.setVAndFlag x (s.getV x - s.getV y) (noBorrowFlag (s.getV x) (s.getV y))).advance
  | .shr x y => (s.setVAndFlag x (s.getV y >>> 1) (shiftedOutRight (s.getV y))).advance
  | .subn x y => (s.setVAndFlag x (s.getV y - s.getV x) (noBorrowFlag (s.getV y) (s.getV x))).advance
  | .shl x y => (s.setVAndFlag x (s.getV y <<< 1) (shiftedOutLeft (s.getV y))).advance
  | .ldI nnn => (s.setI (zextAddr nnn)).advance
  | .jpV0 nnn => s.setPc (zextAddr nnn + zextByte (s.getV regV0))
  | .rnd x nn => (s.setV x (nn &&& Config.randomByte s.draws)).countDraw.advance
  | .drw x y n => ((s.setFb (spriteCanvas x y n s).fb).setV regVF
      (collisionFlag (spriteCanvas x y n s).collided)).advance
  | .skp x => s.skipIf (s.key.down (s.getV x).toNat)
  | .sknp x => s.skipIf (!s.key.down (s.getV x).toNat)
  | .ldVxDt x => (s.setV x s.dt).advance
  | .ldVxK x => s.key.firstDown.elim s fun k => (s.setV x (BitVec.ofNat 8 k)).advance
  | .ldDtVx x => (s.setDt (s.getV x)).advance
  | .ldStVx x => (s.setSt (s.getV x)).advance
  | .addI x => (s.setI (s.i + zextByte (s.getV x))).advance
  | .ldF x => (s.setI (glyphAddr (s.getV x))).advance
  | .ldB x => (((s.store (effectiveAddr s 0) (bcdHundreds (s.getV x))).store (effectiveAddr s 1)
      (bcdTens (s.getV x))).store (effectiveAddr s 2) (bcdOnes (s.getV x))).advance
  | .stRegs x => ((State.storeRegs s.i.toNat (x.toNat + 1) s).setI (s.i + x.setWidth 16)).advance
  | .ldRegs x => ((State.loadRegs s.i.toNat (x.toNat + 1) s).setI (s.i + x.setWidth 16)).advance
  | .sys _ | .nop5 _ _ _ | .nop8 _ _ _ | .nop9 _ _ _ | .nopE _ _ | .nopF _ _ => s.advance

theorem execRet_nonempty {s : State} (h : s.sp ≠ 0) : execRet s = .next (effect .ret s) := by
  cases hstack : s.stack with
  | nil => exact absurd (congrArg List.length hstack) h
  | cons w rest => simp [execRet_ok hstack, effect, hstack]

theorem execLdVxK_eq (x : Nibble) (s : State) : execLdVxK x s = .next (effect (.ldVxK x) s) := by
  cases h : s.key.firstDown with
  | none => simp [execLdVxK_wait h, effect, h]
  | some k => simp [execLdVxK_down h, effect, h]

/-- Every instruction ends in its effect, or in the fault of 60_exceptions.md R181 to R184. -/
theorem exec_endsAs (i : Instr) (s : State) : EndsAs s (specInstrFault s i) (effect i s) (exec i s) := by
  cases i with
  | call => exact endsAs_check nofun execCall_full fun h => execCall_ok (Nat.lt_of_not_le h)
  | ret => exact endsAs_check nofun (fun h => execRet_empty (List.eq_nil_of_length_eq_zero h)) execRet_nonempty
  | skp => exact endsAs_check nofun execSkp_fault fun h => execSkp_ok (by omega)
  | sknp => exact endsAs_check nofun execSknp_fault fun h => execSknp_ok (by omega)
  | drw x y n =>
    refine endsAs_check nofun (fun h => execDrw_fault h.1 h.2) fun h => execDrw_ok ?_
    simp only [visibleRows, originY, Config.fbHeight]
    omega
  | ldB => exact endsAs_check nofun execLdB_fault fun h => execLdB_ok (by omega)
  | stRegs => exact endsAs_check nofun execStRegs_fault fun h => execStRegs_ok (by omega)
  | ldRegs => exact endsAs_check nofun execLdRegs_fault fun h => execLdRegs_ok (by omega)
  | ldVxK x =>
    rw [exec, execLdVxK_eq]
    exact endsAs_next
  | sys | cls | jp | seImm | sneImm | seReg | sneReg | ldImm | addImm | ldReg | orReg | andReg | xorReg
  | addReg | sub | shr | subn | shl | ldI | jpV0 | rnd | ldVxDt | ldDtVx | ldStVx | addI | ldF
  | nop5 | nop8 | nop9 | nopE | nopF => exact endsAs_next

/-- Every step of a core that is not halted ends in the effect of the decoded opcode, or in the fault of
60_exceptions.md section 1. -/
theorem step_endsAs {s : State} (hs : s.fault = .none) :
    EndsAs s (specFault s) (effect (decodeWord s.fetchWord) s) (step s) := by
  unfold specFault
  split
  case isTrue hpc => exact .inr ⟨nofun, step_fetchFault hs hpc⟩
  case isFalse hpc =>
    rw [step_fetched hs (by omega)]
    exact exec_endsAs _ s

@[simp] theorem effect_fault (i : Instr) (s : State) : (effect i s).fault = s.fault := by
  cases i with
  | ldVxK => cases h : s.key.firstDown <;> simp [effect, h]
  | seImm | sneImm | seReg | sneReg | skp | sknp | stRegs | ldRegs => simp [effect]
  | sys | cls | ret | jp | call | ldImm | addImm | ldReg | orReg | andReg | xorReg | addReg | sub | shr
  | subn | shl | ldI | jpV0 | rnd | drw | ldVxDt | ldDtVx | ldStVx | addI | ldF | ldB
  | nop5 | nop8 | nop9 | nopE | nopF => rfl

/-! ### What the effects leave unchanged -/

theorem State.rnd_keepsAllBut (s : State) (x : Nibble) (b : Byte) :
    keepsAllBut [.v, .pc, .draws] s (s.setV x b).countDraw.advance :=
  keepsAllBut_iff.2 (by simp [keeps])

theorem State.drw_keepsAllBut (s : State) (fb : Framebuffer) (b : Byte) :
    keepsAllBut [.fb, .v, .pc] s ((s.setFb fb).setV regVF b).advance :=
  keepsAllBut_iff.2 (by simp [keeps])

theorem keeps_of_keepsAllBut {cs : List Component} {s t : State} {i : Instr} {c : Component}
    (hc : ¬ mayWrite c i) (hkeeps : keepsAllBut cs s t) (hcs : ∀ c ∈ cs, mayWrite c i) : keeps s t c :=
  hkeeps c (mt (hcs c) hc)

theorem effect_keeps {c : Component} {i : Instr} (s : State) (hc : ¬ mayWrite c i) :
    keeps s (effect i s) c := by
  cases i with
  | sys | jp | jpV0 | nop5 | nop8 | nop9 | nopE | nopF =>
    exact keeps_of_keepsAllBut hc (s.setPc_keepsAllBut _) (by simp [mayWrite])
  | seImm | sneImm | seReg | sneReg | skp | sknp =>
    exact keeps_of_keepsAllBut hc (s.skipIf_keepsAllBut _) (by simp [mayWrite])
  | ret | call => exact keeps_of_keepsAllBut hc (s.setStack_setPc_keepsAllBut _ _) (by simp [mayWrite])
  | cls => exact keeps_of_keepsAllBut hc (s.setFb_advance_keepsAllBut _) (by simp [mayWrite])
  | drw => exact keeps_of_keepsAllBut hc (s.drw_keepsAllBut _ _) (by simp [mayWrite, writesReg])
  | ldImm | addImm | ldReg | ldVxDt =>
    exact keeps_of_keepsAllBut hc (s.setV_advance_keepsAllBut _ _) (by simp [mayWrite, writesReg])
  | ldVxK x =>
    cases h : s.key.firstDown with
    | none => simp [effect, h]
    | some k =>
      simp only [effect, h, Option.elim]
      exact keeps_of_keepsAllBut hc (s.setV_advance_keepsAllBut _ _) (by simp [mayWrite, writesReg])
  | rnd => exact keeps_of_keepsAllBut hc (s.rnd_keepsAllBut _ _) (by simp [mayWrite, writesReg])
  | orReg | andReg | xorReg | addReg | sub | shr | subn | shl =>
    exact keeps_of_keepsAllBut hc (s.setVAndFlag_advance_keepsAllBut _ _ _) (by simp [mayWrite, writesReg])
  | ldI | addI | ldF => exact keeps_of_keepsAllBut hc (s.setI_advance_keepsAllBut _) (by simp [mayWrite])
  | ldDtVx => exact keeps_of_keepsAllBut hc (s.setDt_advance_keepsAllBut _) (by simp [mayWrite])
  | ldStVx => exact keeps_of_keepsAllBut hc (s.setSt_advance_keepsAllBut _) (by simp [mayWrite])
  | ldB =>
    exact keeps_of_keepsAllBut hc (s.store_store_store_advance_keepsAllBut _ _ _ _ _ _) (by simp [mayWrite])
  | stRegs => exact keeps_of_keepsAllBut hc (s.storeRegs_setI_advance_keepsAllBut _ _ _) (by simp [mayWrite])
  | ldRegs x =>
    have hv : ∃ r, writesReg r (.ldRegs x) := ⟨x, le_refl x.toNat⟩
    exact keeps_of_keepsAllBut hc (s.loadRegs_setI_advance_keepsAllBut _ _ _) (by simp [mayWrite, hv])

theorem effect_getV {r : Nibble} {i : Instr} (s : State) (hr : ¬ writesReg r i) :
    (effect i s).getV r = s.getV r := by
  cases i with
  | orReg | andReg | xorReg | addReg | sub | shr | subn | shl =>
    simp only [writesReg, not_or] at hr
    simp [effect, hr]
  | ldImm | addImm | ldReg | rnd | drw | ldVxDt => simp_all [effect, writesReg]
  | ldVxK x => cases h : s.key.firstDown <;> simp_all [effect, writesReg]
  | ldRegs x =>
    have hx : ¬ r.toNat < x.toNat + 1 := by simpa [writesReg, Nat.lt_succ_iff] using hr
    exact (State.loadRegs_getV x.isLt s r).trans (if_neg hx)
  | seImm | sneImm | seReg | sneReg | skp | sknp | stRegs => simp [effect]
  | sys | cls | ret | jp | call | ldI | jpV0 | ldDtVx | ldStVx | addI | ldF | ldB
  | nop5 | nop8 | nop9 | nopE | nopF => rfl

/-! ### The sound timer -/

theorem State.skipIf_setSt (s : State) (b : Byte) (c : Bool) : (s.setSt b).skipIf c = (s.skipIf c).setSt b := by
  cases c <;> rfl

theorem State.storeRegs_setSt (base n : Nat) (s : State) (b : Byte) :
    State.storeRegs base n (s.setSt b) = (State.storeRegs base n s).setSt b := by
  induction n with
  | zero => rfl
  | succ n ih => simp only [State.storeRegs, ih]; rfl

theorem State.loadRegs_setSt (base n : Nat) (s : State) (b : Byte) :
    State.loadRegs base n (s.setSt b) = (State.loadRegs base n s).setSt b := by
  induction n with
  | zero => rfl
  | succ n ih => simp only [State.loadRegs, ih]; rfl

theorem specInstrFault_setSt (i : Instr) (s : State) (b : Byte) :
    specInstrFault (s.setSt b) i = specInstrFault s i := by
  cases i <;> rfl

/-- No effect reads `ST`: but for `ST` itself it is the same from any value of it. -/
theorem effect_setSt (i : Instr) (s : State) (b c : Byte) :
    (effect i (s.setSt b)).setSt c = (effect i s).setSt c := by
  cases i with
  | seImm | sneImm | seReg | sneReg | skp | sknp => simp only [effect, State.skipIf_setSt]; rfl
  | stRegs => simp only [effect, State.storeRegs_setSt]; rfl
  | ldRegs => simp only [effect, State.loadRegs_setSt]; rfl
  | ldVxK x => cases h : s.key.firstDown <;> simp [effect, h] <;> rfl
  | sys | cls | ret | jp | call | ldImm | addImm | ldReg | orReg | andReg | xorReg | addReg | sub | shr
  | subn | shl | ldI | jpV0 | rnd | drw | ldVxDt | ldDtVx | ldStVx | addI | ldF | ldB
  | nop5 | nop8 | nop9 | nopE | nopF => rfl

/-! ### Obligations -/

/-- Settles O43: an effect keeps what its instruction is not listed for, and a fault changes the latch alone. -/
theorem onlyListedInstructionsWrite : Obligations.OnlyListedInstructionsWrite := by
  unfold Obligations.OnlyListedInstructionsWrite
  intro c i s t ht hc
  obtain ⟨-, rfl⟩ | ⟨-, rfl⟩ := (exec_endsAs i s).next_cases ht
  case inl => exact effect_keeps s hc
  case inr =>
    obtain ⟨-, hkeeps⟩ := raise_keeps (specInstrFault s i) s
    exact keeps_of_keepsAllBut hc hkeeps (by simp [mayWrite])

/-- Settles O44: an effect keeps the registers its instruction does not write, and a fault keeps them all. -/
theorem onlyNamedRegistersChange : Obligations.OnlyNamedRegistersChange := by
  unfold Obligations.OnlyNamedRegistersChange
  intro r i s t ht hr
  obtain ⟨-, rfl⟩ | ⟨-, rfl⟩ := (exec_endsAs i s).next_cases ht
  case inl => exact effect_getV s hr
  case inr => rfl

/-- Settles O45: neither the choice between effect and fault nor the effect reads `ST`. -/
theorem soundTimerIsNeverRead : Obligations.SoundTimerIsNeverRead := by
  unfold Obligations.SoundTimerIsNeverRead
  intro i s t b ht
  have hends := exec_endsAs i (s.setSt b)
  rw [specInstrFault_setSt] at hends
  obtain ⟨hf, rfl⟩ | ⟨hf, rfl⟩ := (exec_endsAs i s).next_cases ht
  case inl => exact ⟨_, hends.eq_next hf, effect_setSt i s b 0x00#8⟩
  case inr => exact ⟨_, hends.eq_raise hf, rfl⟩

/-- Settles O40: an effect keeps the latch, which was `NONE`, and a fault of the tables sets it to itself. -/
theorem faultsExactlyAsTabled : Obligations.FaultsExactlyAsTabled := by
  unfold Obligations.FaultsExactlyAsTabled
  intro s hs
  obtain ⟨hf, h⟩ | ⟨-, h⟩ := step_endsAs hs
  case inl => exact ⟨_, h, by rw [effect_fault, hs, hf]⟩
  case inr => exact ⟨_, h, rfl⟩

/-- Settles O41: a step that sets the latch ended in a fault, which `raise` takes without changing more. -/
theorem faultingStepChangesOnlyLatch : Obligations.FaultingStepChangesOnlyLatch := by
  unfold Obligations.FaultingStepChangesOnlyLatch
  intro s t hs ht hhalted
  obtain ⟨-, rfl⟩ | ⟨-, rfl⟩ := (step_endsAs hs).next_cases ht
  case inl => exact absurd ((effect_fault _ s).trans hs) hhalted
  case inr => rfl

end Sys2Proof.Machine
end

section
/-! PROOFS. The invariant (10_state.md sections 4, 5 and 7): the effects keep it part by part, then the step,
the host events and every schedule of them. -/

namespace Sys2Proof.Machine

variable {s : State}

/-! ### The effect of an instruction -/

theorem specFault_eq_none (h : specFault s = .none) :
    s.pc.toNat ≤ 0xFFE ∧ specInstrFault s (decodeWord s.fetchWord) = .none := by
  unfold specFault at h
  split at h
  case isTrue => cases h
  case isFalse hpc => exact ⟨by omega, h⟩

theorem not_of_check_eq_none {c : Prop} [Decidable c] {f : FaultLatch}
    (h : (if c then f else .none) = .none) (hf : f ≠ .none) : ¬ c := fun hc => hf (by rwa [if_pos hc] at h)

/-- A store in range keeps memory canonical, and the other effects do not touch it. -/
theorem effect_mem_wf {i : Instr} (hf : specInstrFault s i = .none) (hm : s.mem.wf = true) :
    (effect i s).mem.wf = true := by
  cases i with
  | ldB x =>
    have hfits : ¬ 0xFFF < s.i.toNat + 2 := not_of_check_eq_none hf nofun
    have hlt : ∀ k, k ≤ 2 → effectiveAddr s k < Config.memSize := fun k hk => by
      simp only [effectiveAddr, Config.memSize]
      omega
    exact Memory.wf_set (Memory.wf_set (Memory.wf_set hm (hlt 0 (by omega)) _) (hlt 1 (by omega)) _)
      (hlt 2 (by omega)) _
  | stRegs x =>
    have hfits : ¬ 0xFFF < s.i.toNat + x.toNat := not_of_check_eq_none hf nofun
    exact State.storeRegs_wf hm (by omega)
  | ldVxK => cases h : s.key.firstDown <;> simpa [effect, h] using hm
  | seImm | sneImm | seReg | sneReg | skp | sknp | ldRegs => simpa [effect] using hm
  | sys | cls | ret | jp | call | ldImm | addImm | ldReg | orReg | andReg | xorReg | addReg | sub | shr
  | subn | shl | ldI | jpV0 | rnd | drw | ldVxDt | ldDtVx | ldStVx | addI | ldF
  | nop5 | nop8 | nop9 | nopE | nopF => exact hm

theorem pc_add_toNat (hpc : s.pc.toNat ≤ 0xFFE) {k : Word} (hk : k.toNat ≤ 4) :
    (s.pc + k).toNat = s.pc.toNat + k.toNat := by
  rw [BitVec.toNat_add]
  omega

theorem pc_add_le_maxPc (hpc : s.pc.toNat ≤ 0xFFE) {k : Word} (hk : k.toNat ≤ 4) :
    (s.pc + k).toNat ≤ maxPc := by
  rw [pc_add_toNat hpc hk, maxPc]
  omega

/-- The return address of a call is at most 0x1000, since the call was fetched at 0xFFE or below. -/
theorem effect_stack (i : Instr) (hf : specInstrFault s i = .none) (hpc : s.pc.toNat ≤ 0xFFE)
    (hsp : s.sp ≤ stackCapacity) (hret : ∀ w ∈ s.stack, w.toNat ≤ maxReturn) :
    (effect i s).sp ≤ stackCapacity ∧ ∀ w ∈ (effect i s).stack, w.toNat ≤ maxReturn := by
  by_cases hw : mayWrite .stack i
  · obtain rfl | ⟨nnn, rfl⟩ := hw
    case inl =>
      have htail : (effect .ret s).stack = s.stack.tail := rfl
      refine ⟨?_, fun w hw => hret w (List.mem_of_mem_tail hw)⟩
      rw [State.sp, htail, List.length_tail]
      exact (Nat.sub_le _ _).trans hsp
    case inr =>
      have hroom : ¬ stackCapacity ≤ s.sp := not_of_check_eq_none hf nofun
      refine ⟨Nat.lt_of_not_le hroom, List.forall_mem_cons.2 ⟨?_, hret⟩⟩
      rw [pc_add_toNat hpc (by decide), maxReturn]
      exact Nat.add_le_add_right hpc 2
  · have hstack : (effect i s).stack = s.stack := effect_keeps s hw
    rw [State.sp, hstack]
    exact ⟨hsp, hret⟩

/-- Every row of the table of 10_state.md R28 keeps `pc` at most 0x10FE. -/
theorem specNextPc_le_maxPc {t : State} {i : Instr} (h : specNextPc s t i) (hpc : s.pc.toNat ≤ 0xFFE)
    (hret : ∀ w ∈ s.stack, w.toNat ≤ maxReturn) : t.pc.toNat ≤ maxPc := by
  have h0 : s.pc.toNat ≤ maxPc := by rw [maxPc]; omega
  have h2 : (s.pc + 2#16).toNat ≤ maxPc := pc_add_le_maxPc hpc (by decide)
  have h4 : (s.pc + 4#16).toNat ≤ maxPc := pc_add_le_maxPc hpc (by decide)
  cases i with
  | jp nnn | call nnn =>
    have := nnn.isLt
    simp only [specNextPc, maxPc] at h ⊢
    omega
  | jpV0 nnn =>
    have := nnn.isLt
    have := (s.getV 0#4).isLt
    simp only [specNextPc, maxPc] at h ⊢
    omega
  | ret => exact (hret _ (List.mem_of_mem_head? h)).trans (by decide)
  | seImm | sneImm | seReg | sneReg | skp | sknp =>
    rw [show t.pc = _ from h]
    split <;> assumption
  | ldVxK =>
    obtain ⟨hdown, hup⟩ := h
    by_cases hk : s.someKeyDown
    · rwa [hdown hk]
    · rwa [hup hk]
  | sys | cls | ldImm | addImm | ldReg | orReg | andReg | xorReg | addReg | sub | shr
  | subn | shl | ldI | rnd | drw | ldVxDt | ldDtVx | ldStVx | addI | ldF | ldB | stRegs | ldRegs
  | nop5 | nop8 | nop9 | nopE | nopF => rwa [show t.pc = s.pc + 2#16 from h]

theorem effect_inv {i : Instr} (hs : s.fault = .none) (hf : specInstrFault s i = .none)
    (hpc : s.pc.toNat ≤ 0xFFE) (hinv : s.Inv) : (effect i s).Inv := by
  obtain ⟨hm, hsp, -, hret, hwf⟩ := hinv
  obtain ⟨hsp', hret'⟩ := effect_stack i hf hpc hsp hret
  obtain ⟨hnext, -⟩ := exec_leavesPcAsTabled hs i _ ((exec_endsAs i s).eq_next hf)
  have htable : specNextPc s (effect i s) i := hnext ((effect_fault i s).trans hs)
  exact ⟨effect_mem_wf hf hm, hsp', specNextPc_le_maxPc htable hpc hret, hret', by rwa [effect_fault]⟩

/-! ### A fault -/

theorem wf_of_check {c : Prop} [Decidable c] {f : FaultLatch} (h : c → f.wf) :
    (if c then f else .none).wf := by
  split
  case isTrue hc => exact h hc
  case isFalse => trivial

theorem specInstrFault_wf (s : State) (i : Instr) : (specInstrFault s i).wf := by
  cases i with
  | call | ret => exact wf_of_check fun _ => trivial
  | skp | sknp => exact wf_of_check id
  | drw | ldB | stRegs | ldRegs => exact wf_of_check fun _ => boundsFault_wf s.i.isLt
  | sys | cls | jp | seImm | sneImm | seReg | sneReg | ldImm | addImm | ldReg | orReg | andReg | xorReg
  | addReg | sub | shr | subn | shl | ldI | jpV0 | rnd | ldVxDt | ldVxK | ldDtVx | ldStVx | addI | ldF
  | nop5 | nop8 | nop9 | nopE | nopF => trivial

theorem specFault_wf (s : State) : (specFault s).wf := by
  unfold specFault
  split
  · exact boundsFault_wf s.pc.isLt
  · exact specInstrFault_wf s _

theorem State.inv_setFault {f : FaultLatch} (hinv : s.Inv) (hf : f.wf) : State.Inv { s with fault := f } := by
  obtain ⟨hm, hsp, hpc, hret, -⟩ := hinv
  exact ⟨hm, hsp, hpc, hret, hf⟩

/-! ### The step and the events -/

theorem step_inv {t : State} (hinv : s.Inv) (ht : step s = .next t) : t.Inv := by
  by_cases hs : s.fault = .none
  · obtain ⟨hf, rfl⟩ | ⟨-, rfl⟩ := (step_endsAs hs).next_cases ht
    · obtain ⟨hpc, hf⟩ := specFault_eq_none hf
      exact effect_inv hs hf hpc hinv
    · exact State.inv_setFault hinv (specFault_wf s)
  · cases (step_halted hs).symm.trans ht
    exact hinv

theorem hostReset_inv (s : State) : (hostReset s).Inv :=
  ⟨rfl, Nat.zero_le _, by rw [hostReset_pc]; decide, List.forall_mem_nil _, trivial⟩

/-- All that a load with a transition does: the state was the reset state, and the program fits. -/
theorem hostLoad_eq_next {rom : List Byte} {t : State} (h : hostLoad rom s = .next t) :
    s = hostReset s ∧ rom.length ≤ 3584 ∧ t = { s with mem := s.mem.setBytes 0x200 rom } := by
  unfold hostLoad at h
  split at h
  case isTrue => cases h
  case isFalse hreset =>
    split at h
    case isTrue => cases h
    case isFalse hfits =>
      cases h
      exact ⟨not_not.1 hreset, Nat.le_of_not_lt hfits, rfl⟩

theorem hostLoad_inv {rom : List Byte} {t : State} (hinv : s.Inv) (h : hostLoad rom s = .next t) : t.Inv := by
  obtain ⟨-, hfits, rfl⟩ := hostLoad_eq_next h
  obtain ⟨hm, hsp, hpc, hret, hwf⟩ := hinv
  exact ⟨Memory.wf_setBytes hm (by simp only [Config.memSize]; omega), hsp, hpc, hret, hwf⟩

theorem transition_inv {e : Event} {t : State} (hinv : s.Inv) (h : transition e s = .next t) : t.Inv := by
  cases e with
  | reset => cases h; exact hostReset_inv s
  | load rom => exact hostLoad_inv hinv h
  | step => exact step_inv hinv h
  | tick => cases h; exact hinv
  | setKeys k => cases h; exact hinv

theorem andThen_eq_next {r : Result} {k : State → Result} {t : State} (h : andThen r k = .next t) :
    ∃ u, r = .next u ∧ k u = .next t := by
  cases r with
  | next u => exact ⟨u, rfl, h⟩
  | fault => cases h
  | refused => cases h

theorem runSchedule_inv {es : List Event} {t : State} (hinv : s.Inv) (h : runSchedule es s = .next t) :
    t.Inv := by
  induction es generalizing s with
  | nil => cases h; exact hinv
  | cons e es ih =>
    obtain ⟨u, hu, ht⟩ := andThen_eq_next h
    exact ih (transition_inv hinv hu) ht

/-! ### Obligations -/

/-- Settles O47: an effect keeps each part of the invariant, and a fault of the tables has info of its kind. -/
theorem stepKeepsInvariant : Obligations.StepKeepsInvariant := by
  unfold Obligations.StepKeepsInvariant
  intro s t
  exact step_inv

/-- Settles O48, by induction on the schedule: every event keeps the invariant. -/
theorem scheduleKeepsInvariant : Obligations.ScheduleKeepsInvariant := by
  unfold Obligations.ScheduleKeepsInvariant
  intro es s t
  exact runSchedule_inv

/-- Settles O49: the reset state is what a reset leaves of itself. -/
theorem resetMeetsInvariant : Obligations.ResetMeetsInvariant := by
  unfold Obligations.ResetMeetsInvariant
  exact ⟨hostReset_inv State.reset, hostReset_inv⟩

end Sys2Proof.Machine
end

section
/-! PROOFS. The step (30_encoding.md R70): the opcode as a number, the faulting address, a word placed at `pc`;
then the terminal state (70_reset_and_hazards.md R222). -/

namespace Sys2Proof

/-- Big-endian (20_memory.md R50): the first byte weighs 256. -/
theorem wordOfBytes_eq_ofNat (hi lo : Byte) :
    wordOfBytes hi lo = BitVec.ofNat 16 (256 * hi.toNat + lo.toNat) := by
  apply BitVec.eq_of_toNat_eq
  rw [wordOfBytes, BitVec.toNat_append, BitVec.toNat_ofNat, Nat.shiftLeft_eq, Nat.mul_comm,
    ← Nat.two_pow_add_eq_or_of_lt lo.isLt]
  omega

theorem tableWord_toNat (w : Word) : tableWord 16 w.toNat = w := by
  rw [tableWord, Nat.mod_eq_of_lt w.isLt, BitVec.ofNat_toNat, BitVec.setWidth_eq]

end Sys2Proof

namespace Sys2Proof.Machine

variable {s : State}

/-! ### The step -/

theorem step_eq_exec_ofNat (hs : s.fault = .none) (hpc : s.pc.toNat ≤ 0xFFE) :
    step s = exec (decodeWord (BitVec.ofNat 16
      (256 * (s.mem.get s.pc.toNat).toNat + (s.mem.get (s.pc.toNat + 1)).toNat))) s := by
  rw [step_fetched hs hpc, State.fetchWord, wordOfBytes_eq_ofNat]

/-- A `pc` that is itself above 0xFFF is the lowest address out of range. -/
theorem boundsFault_of_le {w : Word} (h : 0x1000 ≤ w.toNat) : boundsFault w.toNat = .memBounds w := by
  rw [boundsFault, Nat.max_eq_left h, BitVec.ofNat_toNat, BitVec.setWidth_eq]

theorem withFetchWord_pc_le (s : State) (nbits w : Nat) : (s.withFetchWord nbits w).pc.toNat ≤ 0xFFE := by
  simp only [State.withFetchWord, Config.memSize]
  split
  · omega
  · decide

theorem withFetchWord_mem (s : State) (nbits w : Nat) : (s.withFetchWord nbits w).mem =
    (s.mem.set (s.withFetchWord nbits w).pc.toNat (highByte (tableWord nbits w))).set
      ((s.withFetchWord nbits w).pc.toNat + 1) (lowByte (tableWord nbits w)) := rfl

theorem fetchWord_withFetchWord (hm : s.mem.wf = true) (w : Word) :
    (s.withFetchWord 16 w.toNat).fetchWord = w := by
  have hpc := withFetchWord_pc_le s 16 w.toNat
  have hm' := Memory.wf_set hm (a := (s.withFetchWord 16 w.toNat).pc.toNat)
    (by simp only [Config.memSize]; omega) (highByte w)
  rw [State.fetchWord, withFetchWord_mem, tableWord_toNat, Memory.get_set hm', Memory.get_set hm', if_pos rfl,
    if_neg (by omega), Memory.get_set hm, if_pos rfl, wordOfBytes_highByte_lowByte]

/-! ### Obligations -/

/-- Settles O5: the three ways a step goes, with the faulting address and the opcode as numbers. -/
theorem stepRunsDecodedInstruction : Obligations.StepRunsDecodedInstruction := by
  unfold Obligations.StepRunsDecodedInstruction
  intro s
  refine ⟨step_halted, fun hs hpc => ?above, fun hs hpc => ?last, step_eq_exec_ofNat⟩
  case above => rw [step_fetchFault hs (by omega), boundsFault_of_le hpc]
  case last =>
    have hbounds : boundsFault s.pc.toNat = .memBounds 0x1000#16 := by rw [hpc]; decide
    rw [step_fetchFault hs (by rw [hpc]; decide), hbounds]

/-- Settles O6: the two bytes of the word stand at `pc`, where the fetch is in range. -/
theorem placedWordRunsNext : Obligations.PlacedWordRunsNext := by
  unfold Obligations.PlacedWordRunsNext
  intro w s hm
  rw [step_fetched rfl (withFetchWord_pc_le s 16 w.toNat), fetchWord_withFetchWord hm w]

/-- Settles O46: a jump to `pc` sets `pc` to itself, and no event in question touches what the notion reads. -/
theorem terminalStateIsFixedPoint : Obligations.TerminalStateIsFixedPoint := by
  unfold Obligations.TerminalStateIsFixedPoint
  intro s hterm
  refine ⟨?step, hterm, fun _ => hterm⟩
  case step =>
    obtain ⟨hrunning, hpc, nnn, hdecode, htarget⟩ := hterm
    rw [step_fetched (not_not.1 hrunning) hpc, hdecode, exec, execJp, State.setPc_eq_self htarget.symm]

end Sys2Proof.Machine
end

section
/-! PROOFS. Control transfer (40_flow.md): `BNNN`, and a call with its return. -/

namespace Sys2Proof.Machine

/-- Settles O17: neither the sum nor its fetch is reduced. -/
theorem jumpWithOffset : Obligations.JumpWithOffset := by
  unfold Obligations.JumpWithOffset
  intro nnn s
  have hpc := jpV0_target_toNat nnn (s.getV regV0)
  refine ⟨decodeWord_jpV0 nnn, s.setPc (zextAddr nnn + zextByte (s.getV regV0)), rfl, hpc,
    s.setPc_keepsAllBut _, fun habove hs => ?_⟩
  rw [← hpc] at habove ⊢
  exact step_fetchFault hs habove

/-- Settles O20: the return pops what the call pushed, whatever the `pc` it is run at. -/
theorem callThenReturnRoundTrip : Obligations.CallThenReturnRoundTrip := by
  unfold Obligations.CallThenReturnRoundTrip
  intro nnn s t u hroom ht hu
  cases (execCall_ok hroom).symm.trans ht
  rw [← hu]
  exact execRet_ok rfl

end Sys2Proof.Machine
end

section
/-! PROOFS. Opcodes without an effect (47_noop.md): families 5 and 9. -/

namespace Sys2Proof.Machine

/-- Settles O38: these words select the no-op rows, whose meaning goes on without reading its operands. -/
theorem uncomparedSkipsOnlyAdvance : Obligations.UncomparedSkipsOnlyAdvance := by
  unfold Obligations.UncomparedSkipsOnlyAdvance
  intro x y n s
  have hnoop : ∃ t, noop s = .next t ∧ noopEffect s t := ⟨_, rfl, s.advance_noopEffect⟩
  refine ⟨fun hn => ⟨?nop5, ?nop9⟩, hnoop, hnoop⟩
  case nop5 => rw [decodeWord_formatXYN_5, decode5_of_ne_zero x y hn]
  case nop9 => rw [decodeWord_formatXYN_9, decode9_of_ne_zero x y hn]

end Sys2Proof.Machine
end

section
/-! PROOFS. Index register and memory transfer (44_index_memory.md): `FX1E`, what `FX55` and `FX33` leave in
memory as the next fetch reads it (20_memory.md section 10), and the round trip of `FX55` and `FX65`. -/

namespace Sys2Proof.Machine

variable {s : State}

/-- Settles O22: the sum of 16-bit words is the sum modulo 65536. -/
theorem addToIndex : Obligations.AddToIndex := by
  unfold Obligations.AddToIndex
  intro x s
  have hsum : (s.i + zextByte (s.getV x)).toNat = (s.i.toNat + (s.getV x).toNat) % 65536 := by
    rw [BitVec.toNat_add, zextByte_toNat]
  exact ⟨decodeWord_formatXNN_F x 0x1E#8, _, rfl, hsum, rfl, s.setI_advance_keepsAllBut _⟩

/-- Settles O27: `FX65` reads each byte where `FX55` put it. -/
theorem storeThenLoadRegisters : Obligations.StoreThenLoadRegisters := by
  unfold Obligations.StoreThenLoadRegisters
  intro x s t u hm hfits ht humem hui
  cases (execStRegs_ok (Nat.lt_succ_of_le hfits)).symm.trans ht
  refine ⟨_, execLdRegs_ok (by rw [hui]; omega), fun k hk => ?reads, congrArg (· + x.setWidth 16) hui⟩
  case reads =>
    refine (State.loadRegs_getV x.isLt u k).trans ?_
    rw [if_pos (Nat.lt_succ_of_le hk), humem, hui]
    exact State.storeRegs_mem_get_covered hm hfits hk

/-- The step after an instruction that went on to `pc + 2` runs the opcode it left there. -/
theorem step_after_advance {t : State} (hs : s.fault = .none) (hpc : s.pc.toNat + 3 ≤ 0xFFF)
    (hfault : t.fault = s.fault) (ht : t.pc = s.pc + 2#16) {byteAt : Nat → Nat}
    (hbytes : ∀ a, (t.mem.get a).toNat = byteAt a) :
    step t = exec (decodeWord (BitVec.ofNat 16
      (256 * byteAt (s.pc.toNat + 2) + byteAt (s.pc.toNat + 3)))) t := by
  have htpc : t.pc.toNat = s.pc.toNat + 2 := by
    rw [ht]
    exact pc_add_toNat (by omega) (by decide)
  rw [step_eq_exec_ofNat (hfault.trans hs) (by omega), htpc, hbytes, hbytes]

/-- Settles O28: memory after the store, byte by byte, is what the fetch at `pc + 2` reads. -/
theorem storedBytesAreFetchedNext : Obligations.StoredBytesAreFetchedNext := by
  unfold Obligations.StoredBytesAreFetchedNext
  intro x s hm hs hpc base v regByte digitByte
  refine ⟨fun hfits => ⟨_, execStRegs_ok (Nat.lt_succ_of_le hfits), ?registers⟩,
    fun hfits => ⟨_, execLdB_ok (Nat.lt_succ_of_le hfits), ?digits⟩⟩
  case registers =>
    have hbytes (a : Nat) : ((State.storeRegs base (x.toNat + 1) s).mem.get a).toNat = regByte a := by
      rw [State.storeRegs_mem_get hm (Nat.succ_le_succ hfits), apply_ite BitVec.toNat]
      exact if_congr (by omega) rfl rfl
    exact step_after_advance hs hpc (by simp) (by simp) hbytes
  case digits =>
    have hbytes (a : Nat) : ((((s.mem.set base (bcdHundreds (s.getV x))).set (base + 1)
        (bcdTens (s.getV x))).set (base + 2) (bcdOnes (s.getV x))).get a).toNat = digitByte a := by
      simp only [Memory.get_set_set_set hm hfits, apply_ite BitVec.toNat, bcdHundreds_toNat, bcdTens_toNat,
        bcdOnes_toNat, digitByte]
      split_ifs <;> omega
    exact step_after_advance hs hpc (by simp) (by simp) hbytes

end Sys2Proof.Machine
end

section
/-! PROOFS. Display (45_display.md): a draw by the pixels the sprite covers, then `DXYN` once, with no row, and
twice. -/

namespace Sys2Proof.Machine

variable {s : State} {x y n : Nibble}

/-! ### One draw -/

/-- The pixels the visible part of the sprite covers, in the numbers of R151. -/
def drawCovers (x y n : Nibble) (s : State) : Nat → Nat → Bool :=
  spriteCovers s.mem s.i.toNat ((s.getV y).toNat % 32) ((s.getV x).toNat % 64)
    (min n.toNat (32 - (s.getV y).toNat % 32))

theorem drawCovers_of_no_rows (x y : Nibble) (s : State) (py px : Nat) :
    drawCovers x y 0x0#4 s py px = false := by
  have hrows : min (0x0#4).toNat (32 - (s.getV y).toNat % 32) = 0 := Nat.zero_min _
  rw [drawCovers, hrows, spriteCovers, decide_eq_false (by omega), Bool.false_and]

theorem effect_drw_pixel (x y n : Nibble) (s : State) (py px : Nat) :
    (effect (.drw x y n) s).fb.pixel py px = (s.fb.pixel py px ^^ drawCovers x y n s py px) := by
  obtain ⟨hpixel, -⟩ := spriteCanvas_spec x y n s
  exact hpixel py px

theorem effect_drw_flag (x y n : Nibble) (s : State) :
    (effect (.drw x y n) s).getV 0xF#4 = collisionFlag (spriteCanvas x y n s).collided := by
  simp [effect]

theorem effect_drw_getV_of_ne (x y n : Nibble) (s : State) {r : Nibble} (hr : r ≠ 0xF#4) :
    (effect (.drw x y n) s).getV r = s.getV r :=
  effect_getV s hr

theorem effect_drw_hit (h : ∃ py px, drawCovers x y n s py px = true ∧ s.fb.pixel py px = true) :
    (effect (.drw x y n) s).getV 0xF#4 = 0x01#8 := by
  obtain ⟨-, hcollided⟩ := spriteCanvas_spec x y n s
  rw [effect_drw_flag, hcollided.2 h]
  rfl

theorem effect_drw_miss (h : ∀ py px, drawCovers x y n s py px = true → s.fb.pixel py px = false) :
    (effect (.drw x y n) s).getV 0xF#4 = 0x00#8 := by
  obtain ⟨-, hcollided⟩ := spriteCanvas_spec x y n s
  have hmiss : (spriteCanvas x y n s).collided = false := by
    rw [Bool.eq_false_iff, ne_eq, hcollided]
    rintro ⟨py, px, hcovers, hon⟩
    simp [h py px hcovers] at hon
  rw [effect_drw_flag, hmiss]
  rfl

theorem exec_drw_of_rows_fit (h : min n.toNat (32 - (s.getV y).toNat % 32) = 0 ∨
    s.i.toNat + min n.toNat (32 - (s.getV y).toNat % 32) - 1 ≤ 0xFFF) :
    exec (.drw x y n) s = .next (effect (.drw x y n) s) :=
  execDrw_ok (h.imp id Nat.lt_succ_of_le)

/-! ### A second draw -/

/-- A draw keeps what its sprite depends on, unless a coordinate is in `VF`. -/
theorem drawCovers_effect_drw (hx : x ≠ 0xF#4) (hy : y ≠ 0xF#4) :
    drawCovers x y n (effect (.drw x y n) s) = drawCovers x y n s := by
  have hmem : (effect (.drw x y n) s).mem = s.mem := rfl
  have hi : (effect (.drw x y n) s).i = s.i := rfl
  rw [drawCovers, drawCovers, effect_drw_getV_of_ne x y n s hx, effect_drw_getV_of_ne x y n s hy, hmem, hi]

/-! ### Obligations -/

/-- Settles O30: the loops of `DXYN` toggle the covered pixels and record whether one of them was on. -/
theorem drawTogglesCoveredPixels : Obligations.DrawTogglesCoveredPixels := by
  unfold Obligations.DrawTogglesCoveredPixels
  intro x y n s x0 y0 rows covers
  refine ⟨decodeWord_drw x y n, fun hfits => ?draws, fun hrows hout => execDrw_fault hrows hout⟩
  case draws =>
    exact ⟨_, exec_drw_of_rows_fit hfits, effect_drw_pixel x y n s, effect_drw_hit, effect_drw_miss,
      fun r hr => effect_drw_getV_of_ne x y _ s hr, rfl, s.drw_keepsAllBut _ _⟩

/-- Settles O31: with no row the canvas is the screen, and the check passes for every `I`. -/
theorem drawOfNoRows : Obligations.DrawOfNoRows := by
  unfold Obligations.DrawOfNoRows
  intro x y s
  have hcovers : ∀ py px, drawCovers x y 0x0#4 s py px = false := drawCovers_of_no_rows x y s
  refine ⟨_, exec_drw_of_rows_fit (.inl (Nat.zero_min _)), effect_drw_miss fun py px h => ?_,
    fun r hr => effect_drw_getV_of_ne x y _ s hr, rfl, fun c hc => ?_⟩
  · rw [hcovers] at h
    cases h
  · by_cases hfb : c = .fb
    · subst hfb
      intro py px
      rw [effect_drw_pixel, hcovers, Bool.xor_false]
    · exact s.drw_keepsAllBut _ _ c (by simp_all)

/-- Settles O32: the second draw covers the same pixels, so it toggles each a second time, and on a region that
was clear it finds on what the first draw put there. -/
theorem drawTwiceRestoresScreen : Obligations.DrawTwiceRestoresScreen := by
  unfold Obligations.DrawTwiceRestoresScreen
  intro x y n s t hx hy hfits ht y0 covers
  cases (exec_drw_of_rows_fit (by omega)).symm.trans ht
  have hcovers : drawCovers x y n (effect (.drw x y n) s) = covers := drawCovers_effect_drw hx hy
  have hpixel : ∀ py px, (effect (.drw x y n) s).fb.pixel py px = (s.fb.pixel py px ^^ covers py px) :=
    effect_drw_pixel x y n s
  refine ⟨_, exec_drw_of_rows_fit ?fits, fun py px => ?restored, fun hclear => ⟨effect_drw_miss hclear, ?hit⟩⟩
  case fits =>
    rw [effect_drw_getV_of_ne x y n s hy, show (effect (.drw x y n) s).i = s.i from rfl]
    omega
  case restored =>
    rw [effect_drw_pixel, hcovers, hpixel, Bool.xor_assoc, Bool.xor_self, Bool.xor_false]
  case hit =>
    rintro ⟨py, px, hset⟩
    refine effect_drw_hit ⟨py, px, by rw [hcovers, hset], ?_⟩
    rw [hpixel, hclear py px hset, hset]
    rfl

end Sys2Proof.Machine
end

section
/-! PROOFS. Keys and random (46_key_timer_random.md): `EX9E`, `EXA1` and `CXNN`. -/

namespace Sys2Proof.Machine

theorem State.rnd_getV (s : State) (x : Nibble) (b : Byte) (r : Nibble) :
    (s.setV x b).countDraw.advance.getV r = if r = x then b else s.getV r := by
  simp

/-- No bit outside a mask. -/
theorem byte_and_and_not (m b : Byte) : m &&& b &&& ~~~m = 0x00#8 := by
  rw [BitVec.and_comm m b, BitVec.and_assoc, BitVec.and_not_self]
  exact BitVec.and_zero

/-- Settles O33: each meaning is a `skipIf` on the key, behind the check of its number. -/
theorem skipsOnKey : Obligations.SkipsOnKey := by
  unfold Obligations.SkipsOnKey
  intro x s
  refine ⟨decodeWord_formatXNN_E x 0x9E#8, decodeWord_formatXNN_E x 0xA1#8, fun hkey => ?tests,
    fun hnone => ⟨execSkp_fault hnone, execSknp_fault hnone⟩⟩
  case tests =>
    exact ⟨⟨_, execSkp_ok (Nat.lt_succ_of_le hkey), s.skipIf_skipEffect Iff.rfl⟩,
      ⟨_, execSknp_ok (Nat.lt_succ_of_le hkey), s.skipIf_skipEffect (by simp)⟩⟩

/-- Settles O36: `CXNN` is `rndWith` on the free byte, and `rndWith` masks any byte. -/
theorem randomIsMaskedDraw : Obligations.RandomIsMaskedDraw := by
  unfold Obligations.RandomIsMaskedDraw
  intro x nn s
  refine ⟨decodeWord_rnd x nn, rfl, ⟨_, rfl, ?masked, fun r hr => ?others, rfl, rfl, s.rnd_keepsAllBut x _⟩,
    fun b => ⟨_, rfl, s.rnd_getV x _, rfl, rfl, s.rnd_keepsAllBut x _⟩⟩
  case masked => rw [State.rnd_getV, if_pos rfl, byte_and_and_not]
  case others => rw [State.rnd_getV, if_neg hr]

end Sys2Proof.Machine
end

section
/-! PROOFS. Host events (60_exceptions.md sections 5 and 6, 70_reset_and_hazards.md sections 1 and 2): reset,
load, ticks and key events, and what a halted core does under each. -/

namespace Sys2Proof.Machine

variable {s t : State}

/-! ### Ticks -/

theorem tickDown_toNat (b : Byte) : (tickDown b).toNat = b.toNat - 1 := by
  unfold tickDown
  split
  case isTrue h => simp [h]
  case isFalse h =>
    have hpos : b.toNat ≠ 0 := fun h0 => h (BitVec.eq_of_toNat_eq h0)
    simp only [BitVec.toNat_sub, BitVec.toNat_ofNat]
    omega

theorem tickTimers_keepsAllBut (s : State) : keepsAllBut [.dt, .st] s (tickTimers s) :=
  keepsAllBut_iff.2 (by simp [keeps])

theorem keepsAllBut_trans {cs : List Component} {u : State} (h : keepsAllBut cs s t) (k : keepsAllBut cs t u) :
    keepsAllBut cs s u :=
  fun c hc => keeps_trans (h c hc) (k c hc)

/-! ### Reset and load -/

theorem hostReset_getV (s : State) (r : Nibble) : (hostReset s).getV r = 0x00#8 := by
  simp [hostReset, State.reset, State.getV]

theorem hostReset_key_down (s : State) (k : Nat) : (hostReset s).key.down k = false := by
  unfold KeyVector.down
  split <;> simp [hostReset, State.reset]

theorem hostReset_hasResetValues (s : State) : (hostReset s).hasResetValues := by
  refine ⟨fun a hlo hhi => ?font, fun a => resetByte_outside_font, hostReset_getV s, rfl, rfl, rfl, rfl, rfl,
    Framebuffer.pixel_clear, hostReset_key_down s, rfl⟩
  case font => exact if_pos ⟨hlo, Nat.lt_succ_of_le hhi⟩

theorem hostReset_hostReset (s : State) : hostReset (hostReset s) = hostReset s := rfl

theorem hostLoad_ok {rom : List Byte} (hreset : s = hostReset s) (hfits : rom.length ≤ 3584) :
    hostLoad rom s = .next { s with mem := s.mem.setBytes 0x200 rom } := by
  rw [hostLoad, if_neg (not_not.2 hreset)]
  exact if_neg (Nat.not_lt.2 hfits)

theorem hostLoad_tooLong {rom : List Byte} (hreset : s = hostReset s) (hlong : 3584 < rom.length) :
    hostLoad rom s = .refused .romTooLong := by
  rw [hostLoad, if_neg (not_not.2 hreset)]
  exact if_pos hlong

theorem hostLoad_late {rom : List Byte} (h : s ≠ hostReset s) : hostLoad rom s = .refused .loadNotAfterReset := by
  rw [hostLoad, if_pos h]

/-! ### Timers under a step -/

/-- A step on another instruction than the listed writers keeps the component, the latch apart. -/
theorem step_keeps {c : Component} (hc : c ≠ .fault) (hw : ¬ mayWrite c (decodeWord s.fetchWord))
    (ht : step s = .next t) : keeps s t c := by
  by_cases hs : s.fault = .none
  · obtain ⟨-, rfl⟩ | ⟨-, rfl⟩ := (step_endsAs hs).next_cases ht
    · exact effect_keeps s hw
    · obtain ⟨-, hkeeps⟩ := raise_keeps (specFault s) s
      exact hkeeps c (by simpa using hc)
  · cases (step_halted hs).symm.trans ht
    exact keeps_refl s c

/-! ### Obligations -/

/-- Settles O42: a halted core is not the reset state, so no load has a transition, and the other events but
`reset` leave the latch alone. -/
theorem onlyResetLeavesHalt : Obligations.OnlyResetLeavesHalt := by
  unfold Obligations.OnlyResetLeavesHalt
  intro e s t hs ht
  cases e with
  | reset =>
    cases ht
    exact ⟨fun h => absurd rfl h, fun _ => ⟨fun h => h rfl, rfl⟩⟩
  | load rom =>
    obtain ⟨hreset, -, -⟩ := hostLoad_eq_next ht
    exact absurd (congrArg State.fault hreset) hs
  | step =>
    cases (step_halted hs).symm.trans ht
    exact ⟨fun _ => rfl, nofun⟩
  | tick | setKeys => cases ht; exact ⟨fun _ => rfl, nofun⟩

/-- Settles O50: the reset state is what a reset leaves of itself. -/
theorem resetValues : Obligations.ResetValues := by
  unfold Obligations.ResetValues
  exact ⟨hostReset_hasResetValues State.reset, fun s => ⟨_, rfl, hostReset_hasResetValues s⟩⟩

/-- Settles O51: `tickDown` is subtraction with floor 0. -/
theorem tickDecrementsTimers : Obligations.TickDecrementsTimers := by
  unfold Obligations.TickDecrementsTimers
  intro s
  exact ⟨_, rfl, tickDown_toNat s.dt, tickDown_toNat s.st, tickTimers_keepsAllBut s⟩

/-- Settles O52: the event puts the vector in place of `KEY`. -/
theorem setKeysWritesKeyVector : Obligations.SetKeysWritesKeyVector := by
  unfold Obligations.SetKeysWritesKeyVector
  intro k s
  exact ⟨_, rfl, fun j hj => dif_pos hj, keepsAllBut_iff.2 (by simp [keeps])⟩

/-- Settles O53, by induction on the number of ticks. -/
theorem ticksCountDown : Obligations.TicksCountDown := by
  unfold Obligations.TicksCountDown
  intro n
  induction n with
  | zero => exact fun s => ⟨s, rfl, rfl, rfl, fun c _ => keeps_refl s c⟩
  | succ n ih =>
    intro s
    obtain ⟨t, ht, hdt, hst, hkeeps⟩ := ih (tickTimers s)
    refine ⟨t, ht, ?_, ?_, keepsAllBut_trans (tickTimers_keepsAllBut s) hkeeps⟩
    · rw [hdt, tickTimers_dt, tickDown_toNat]
      omega
    · rw [hst, tickTimers_st, tickDown_toNat]
      omega

/-- Settles O54: a step on another instruction keeps the timer, and no other event raises one. -/
theorem timersRiseOnlyWhenSet : Obligations.TimersRiseOnlyWhenSet := by
  unfold Obligations.TimersRiseOnlyWhenSet
  intro e s t ht
  cases e with
  | reset =>
    cases ht
    exact ⟨fun h => absurd h (Nat.not_lt_zero _), fun h => absurd h (Nat.not_lt_zero _)⟩
  | load rom =>
    obtain ⟨-, -, rfl⟩ := hostLoad_eq_next ht
    exact ⟨fun h => absurd h (lt_irrefl _), fun h => absurd h (lt_irrefl _)⟩
  | step =>
    refine ⟨fun hrise => ⟨rfl, by_contra fun hw => ?dt⟩, fun hrise => ⟨rfl, by_contra fun hw => ?st⟩⟩
    case dt =>
      have hkept : t.dt = s.dt := step_keeps (c := .dt) nofun hw ht
      exact absurd hrise (by rw [hkept]; exact lt_irrefl _)
    case st =>
      have hkept : t.st = s.st := step_keeps (c := .st) nofun hw ht
      exact absurd hrise (by rw [hkept]; exact lt_irrefl _)
  | tick =>
    cases ht
    rw [tickTimers_dt, tickTimers_st, tickDown_toNat, tickDown_toNat]
    exact ⟨fun h => by omega, fun h => by omega⟩
  | setKeys k =>
    cases ht
    exact ⟨fun h => absurd h (lt_irrefl _), fun h => absurd h (lt_irrefl _)⟩

/-- Settles O55: a reset state resets to itself, and the bytes stored at 0x200 read back one by one. -/
theorem loadPlacesProgram : Obligations.LoadPlacesProgram := by
  unfold Obligations.LoadPlacesProgram
  intro rom s
  have hreset : hostReset s = hostReset (hostReset s) := (hostReset_hostReset s).symm
  refine ⟨fun hfits => ?loads, hostLoad_tooLong hreset, hostLoad_late⟩
  case loads =>
    have hread := Memory.get_setBytes (m := []) rfl (a := 0x200) (ws := rom)
      (by simp only [Config.memSize]; omega)
    refine ⟨_, hostLoad_ok hreset hfits, fun j hj => ?program, fun a ha => ?others,
      keepsAllBut_iff.2 (by simp [keeps, State.getV])⟩
    case program =>
      refine (hread (0x200 + j)).trans ?_
      rw [if_pos (Nat.le_add_right _ _), Nat.add_sub_cancel_left, List.getElem?_eq_getElem hj,
        Option.getD_some]
    case others =>
      refine (hread a).trans ?_
      rcases ha with hlow | hhigh
      · exact if_neg (Nat.not_le.2 hlow)
      · rw [if_pos (by omega), List.getElem?_eq_none (by omega)]
        rfl

end Sys2Proof.Machine
end
